-- ==== Sys2Proof/Word.lean ====
section
/-! DEFINITION. The word types of the machine: 32-bit words, bytes, 5-bit register indices (R8, R9, R20). -/

namespace Sys2Proof

/-- A 32-bit bit-vector: a register value, an immediate, an address, a pc value or an instruction
word (R9). `u(v)` of the spec is `v.toNat`, `s(v)` is `v.toInt`; `+` and `-` wrap modulo 2^32. -/
abbrev Word := BitVec 32

/-- One byte of the storage array (R28). -/
abbrev Byte := BitVec 8

/-- A register index: a 5-bit field of the instruction word (R20, R91). Every value names a register. -/
abbrev RegIdx := BitVec 5

end Sys2Proof
end

