-- ==== Sys2Proof/Machine/Flags.lean ====
section
/-! DEFINITION. The hardware has no status flags (R32): a comparison's result goes to a register or is
consumed by the branch that computes it. Here are those comparisons, and the value a comparison writes. -/

namespace Sys2Proof.Machine

open Sys2Proof

/-- `a == b`, all 32 bits (R9). -/
def eqw (a b : Word) : Bool := decide (a = b)

/-- `a <s b`: the signed readings compared as integers (R9, R146, R193). -/
def lts (a b : Word) : Bool := decide (a.toInt < b.toInt)

/-- `a <u b`: the unsigned readings compared (R9, R147, R194). -/
def ltu (a b : Word) : Bool := decide (a.toNat < b.toNat)

/-- `a >=s b` (R9, R195). -/
def ges (a b : Word) : Bool := decide (b.toInt ≤ a.toInt)

/-- `a >=u b` (R9, R196). -/
def geu (a b : Word) : Bool := decide (b.toNat ≤ a.toNat)

/-- The 32-bit value 1 or 0 that a comparison writes (R146). -/
def boolWord (b : Bool) : Word := if b then 1 else 0

end Sys2Proof.Machine
end

