-- ==== Sys2Proof/Syntax.lean ====
section
/-! DEFINITION. The 33 operations of the instruction set (R110), one constructor per row of
spec/opcode_table.json, in the table's order. The arguments are the fields of the decoded record that
the operation does not itself fix (R96): register indices, and the 32-bit immediate as the decoder
delivers it (assembled, sign-extended, and for SB and UJ already a byte offset: R97 to R101). -/

namespace Sys2Proof

/-- An instruction of the RISKXVII set (R96, R110). -/
inductive Instr where
  | add (rd rs1 rs2 : RegIdx)
  | sub (rd rs1 rs2 : RegIdx)
  | xor (rd rs1 rs2 : RegIdx)
  | or (rd rs1 rs2 : RegIdx)
  | and (rd rs1 rs2 : RegIdx)
  | slt (rd rs1 rs2 : RegIdx)
  | sltu (rd rs1 rs2 : RegIdx)
  | addi (rd rs1 : RegIdx) (imm : Word)
  | xori (rd rs1 : RegIdx) (imm : Word)
  | ori (rd rs1 : RegIdx) (imm : Word)
  | andi (rd rs1 : RegIdx) (imm : Word)
  | slti (rd rs1 : RegIdx) (imm : Word)
  | sltiu (rd rs1 : RegIdx) (imm : Word)
  | lui (rd : RegIdx) (imm : Word)
  | sll (rd rs1 rs2 : RegIdx)
  | srl (rd rs1 rs2 : RegIdx)
  | sra (rd rs1 rs2 : RegIdx)
  | lb (rd rs1 : RegIdx) (imm : Word)
  | lh (rd rs1 : RegIdx) (imm : Word)
  | lw (rd rs1 : RegIdx) (imm : Word)
  | lbu (rd rs1 : RegIdx) (imm : Word)
  | lhu (rd rs1 : RegIdx) (imm : Word)
  | sb (rs1 rs2 : RegIdx) (imm : Word)
  | sh (rs1 rs2 : RegIdx) (imm : Word)
  | sw (rs1 rs2 : RegIdx) (imm : Word)
  | beq (rs1 rs2 : RegIdx) (imm : Word)
  | bne (rs1 rs2 : RegIdx) (imm : Word)
  | blt (rs1 rs2 : RegIdx) (imm : Word)
  | bltu (rs1 rs2 : RegIdx) (imm : Word)
  | bge (rs1 rs2 : RegIdx) (imm : Word)
  | bgeu (rs1 rs2 : RegIdx) (imm : Word)
  | jal (rd : RegIdx) (imm : Word)
  | jalr (rd rs1 : RegIdx) (imm : Word)
  deriving DecidableEq, Repr

/-- The six instruction formats (R93). -/
inductive Format where
  | R | I | S | SB | U | UJ
  deriving DecidableEq, Repr

/-- The decoded record (R96): a tagged variant over six shapes, each with the fields its format has
and no other. -/
inductive Record where
  | r (opcode : BitVec 7) (rd : RegIdx) (func3 : BitVec 3) (rs1 rs2 : RegIdx) (func7 : BitVec 7)
  | i (opcode : BitVec 7) (rd : RegIdx) (func3 : BitVec 3) (rs1 : RegIdx) (imm : Word)
  | s (opcode : BitVec 7) (func3 : BitVec 3) (rs1 rs2 : RegIdx) (imm : Word)
  | sb (opcode : BitVec 7) (func3 : BitVec 3) (rs1 rs2 : RegIdx) (imm : Word)
  | u (opcode : BitVec 7) (rd : RegIdx) (imm : Word)
  | uj (opcode : BitVec 7) (rd : RegIdx) (imm : Word)
  deriving DecidableEq, Repr

end Sys2Proof
end

