-- ==== Sys2Proof/WellFormed.lean ====
section
/-! DEFINITION. Which instructions an encoding exists for (R102, R113, R115): every register index is
legal, and the immediate must be one the decoder can produce, in the range and step of its format. -/

namespace Sys2Proof

/-- The immediate of formats I and S: -2048 to 2047 (R97, R98, R102). -/
def immFits12 (imm : Word) : Bool := decide (-2048 ≤ imm.toInt) && decide (imm.toInt ≤ 2047)

/-- The immediate of format SB: even, -4096 to 4094 (R99, R102). -/
def immFitsSB (imm : Word) : Bool :=
  decide (-4096 ≤ imm.toInt) && decide (imm.toInt ≤ 4094) && decide (imm.toNat % 2 = 0)

/-- The immediate of format U: a multiple of 4096 (R100, R102). -/
def immFitsU (imm : Word) : Bool := decide (imm.toNat % 4096 = 0)

/-- The immediate of format UJ: even, -1048576 to 1048574 (R101, R102). -/
def immFitsUJ (imm : Word) : Bool :=
  decide (-1048576 ≤ imm.toInt) && decide (imm.toInt ≤ 1048574) && decide (imm.toNat % 2 = 0)

/-- An instruction that some word decodes to (R115): its immediate is in its format's range and step. -/
def Instr.wellFormed : Instr → Bool
  | .add _ _ _ => true
  | .sub _ _ _ => true
  | .xor _ _ _ => true
  | .or _ _ _ => true
  | .and _ _ _ => true
  | .slt _ _ _ => true
  | .sltu _ _ _ => true
  | .addi _ _ imm => immFits12 imm
  | .xori _ _ imm => immFits12 imm
  | .ori _ _ imm => immFits12 imm
  | .andi _ _ imm => immFits12 imm
  | .slti _ _ imm => immFits12 imm
  | .sltiu _ _ imm => immFits12 imm
  | .lui _ imm => immFitsU imm
  | .sll _ _ _ => true
  | .srl _ _ _ => true
  | .sra _ _ _ => true
  | .lb _ _ imm => immFits12 imm
  | .lh _ _ imm => immFits12 imm
  | .lw _ _ imm => immFits12 imm
  | .lbu _ _ imm => immFits12 imm
  | .lhu _ _ imm => immFits12 imm
  | .sb _ _ imm => immFits12 imm
  | .sh _ _ imm => immFits12 imm
  | .sw _ _ imm => immFits12 imm
  | .beq _ _ imm => immFitsSB imm
  | .bne _ _ imm => immFitsSB imm
  | .blt _ _ imm => immFitsSB imm
  | .bltu _ _ imm => immFitsSB imm
  | .bge _ _ imm => immFitsSB imm
  | .bgeu _ _ imm => immFitsSB imm
  | .jal _ imm => immFitsUJ imm
  | .jalr _ _ imm => immFits12 imm

end Sys2Proof
end

