-- ==== Sys2Proof/Decode.lean ====
section
/-! DEFINITION. The BitField Codec and the Instruction Decoder (30_encoding.md), and the encoder beside
them. Field positions and opcode, func3, func7 values are the spec's own import from RV32I (R91, R110,
92_eei_decisions.md D2: UNVERIFIED, log entry 1). -/

namespace Sys2Proof

/-! ## Sign and zero extension (R10, R95) -/

/-- `sext_N(v)`: the low `n` bits of `v`, bit `n - 1` copied into every higher bit up to 32 (R10, R95). -/
def sext (n : Nat) (v : Word) : Word := (v.setWidth n).signExtend 32

/-- `zext_N(v)`: the low `n` bits of `v` below zeros (R10). -/
def zext (n : Nat) (v : Word) : Word := (v.setWidth n).setWidth 32

/-! ## Field extraction (R91, R92) -/

/-- `opcode(w) = w[6:0]`. -/
def Codec.opcode (w : Word) : BitVec 7 := w.extractLsb' 0 7
/-- `rd(w) = w[11:7]`. -/
def Codec.rd (w : Word) : RegIdx := w.extractLsb' 7 5
/-- `func3(w) = w[14:12]`. -/
def Codec.func3 (w : Word) : BitVec 3 := w.extractLsb' 12 3
/-- `rs1(w) = w[19:15]`. -/
def Codec.rs1 (w : Word) : RegIdx := w.extractLsb' 15 5
/-- `rs2(w) = w[24:20]`. -/
def Codec.rs2 (w : Word) : RegIdx := w.extractLsb' 20 5
/-- `func7(w) = w[31:25]`. -/
def Codec.func7 (w : Word) : BitVec 7 := w.extractLsb' 25 7

/-! ## Immediate assembly (R97 to R102) -/

/-- I: `sext_12(w[31:20])` (R97). -/
def Codec.immI (w : Word) : Word := (w.extractLsb' 20 12).signExtend 32

/-- S: `sext_12(w[31:25] ++ w[11:7])` (R98). -/
def Codec.immS (w : Word) : Word := (w.extractLsb' 25 7 ++ w.extractLsb' 7 5 : BitVec 12).signExtend 32

/-- SB: `sext_13(w[31] ++ w[7] ++ w[30:25] ++ w[11:8] ++ 0b0)` (R99). -/
def Codec.immSB (w : Word) : Word :=
  (w.extractLsb' 31 1 ++ w.extractLsb' 7 1 ++ w.extractLsb' 25 6 ++ w.extractLsb' 8 4 ++ (0 : BitVec 1)
    : BitVec 13).signExtend 32

/-- U: `w[31:12] ++ 0x000`, not extended (R100). -/
def Codec.immU (w : Word) : Word := w.extractLsb' 12 20 ++ (0 : BitVec 12)

/-- UJ: `sext_21(w[31] ++ w[19:12] ++ w[20] ++ w[30:21] ++ 0b0)` (R101). -/
def Codec.immUJ (w : Word) : Word :=
  (w.extractLsb' 31 1 ++ w.extractLsb' 12 8 ++ w.extractLsb' 20 1 ++ w.extractLsb' 21 10 ++ (0 : BitVec 1)
    : BitVec 21).signExtend 32

/-- The record of a format, its fields taken from the word (R96, R103). -/
def Codec.record (f : Format) (w : Word) : Record :=
  match f with
  | .R => .r (Codec.opcode w) (Codec.rd w) (Codec.func3 w) (Codec.rs1 w) (Codec.rs2 w) (Codec.func7 w)
  | .I => .i (Codec.opcode w) (Codec.rd w) (Codec.func3 w) (Codec.rs1 w) (Codec.immI w)
  | .S => .s (Codec.opcode w) (Codec.func3 w) (Codec.rs1 w) (Codec.rs2 w) (Codec.immS w)
  | .SB => .sb (Codec.opcode w) (Codec.func3 w) (Codec.rs1 w) (Codec.rs2 w) (Codec.immSB w)
  | .U => .u (Codec.opcode w) (Codec.rd w) (Codec.immU w)
  | .UJ => .uj (Codec.opcode w) (Codec.rd w) (Codec.immUJ w)

/-! ## The table of 33 (mask, id-bits) pairs (R104, R108, R110) -/

/-- One row of the decoder's table: the format, the canonical mask, the operation's fixed encoding, and
how the operation's instruction is made from the word's fields (R108, R109, R110). -/
structure Row where
  fmt : Format
  mask : Word
  idBits : Word
  build : Word → Instr

/-- The level 1 mask: opcode (R104). -/
def maskOp : Word := 0x0000007F
/-- The level 2 mask: opcode and func3 (R104). -/
def maskOpF3 : Word := 0x0000707F
/-- The level 3 mask: opcode, func3 and func7 (R104). -/
def maskOpF3F7 : Word := 0xFE00707F

/-- A row of format R, matched at level 3. -/
def rowR (idBits : Word) (c : RegIdx → RegIdx → RegIdx → Instr) : Row :=
  ⟨.R, maskOpF3F7, idBits, fun w => c (Codec.rd w) (Codec.rs1 w) (Codec.rs2 w)⟩

/-- A row of format I, matched at level 2. -/
def rowI (idBits : Word) (c : RegIdx → RegIdx → Word → Instr) : Row :=
  ⟨.I, maskOpF3, idBits, fun w => c (Codec.rd w) (Codec.rs1 w) (Codec.immI w)⟩

/-- A row of format S, matched at level 2. -/
def rowS (idBits : Word) (c : RegIdx → RegIdx → Word → Instr) : Row :=
  ⟨.S, maskOpF3, idBits, fun w => c (Codec.rs1 w) (Codec.rs2 w) (Codec.immS w)⟩

/-- A row of format SB, matched at level 2. -/
def rowSB (idBits : Word) (c : RegIdx → RegIdx → Word → Instr) : Row :=
  ⟨.SB, maskOpF3, idBits, fun w => c (Codec.rs1 w) (Codec.rs2 w) (Codec.immSB w)⟩

/-- A row of format U, matched at level 1. -/
def rowU (idBits : Word) (c : RegIdx → Word → Instr) : Row :=
  ⟨.U, maskOp, idBits, fun w => c (Codec.rd w) (Codec.immU w)⟩

/-- A row of format UJ, matched at level 1. -/
def rowUJ (idBits : Word) (c : RegIdx → Word → Instr) : Row :=
  ⟨.UJ, maskOp, idBits, fun w => c (Codec.rd w) (Codec.immUJ w)⟩

/-- Rows 1 to 7 of R110: register arithmetic, logic and comparison. -/
def tableArith : List Row :=
  [rowR 0x00000033 .add, rowR 0x40000033 .sub, rowR 0x00004033 .xor, rowR 0x00006033 .or,
   rowR 0x00007033 .and, rowR 0x00002033 .slt, rowR 0x00003033 .sltu]

/-- Rows 8 to 14 of R110: immediate arithmetic, logic and comparison, and `lui`. -/
def tableArithImm : List Row :=
  [rowI 0x00000013 .addi, rowI 0x00004013 .xori, rowI 0x00006013 .ori, rowI 0x00007013 .andi,
   rowI 0x00002013 .slti, rowI 0x00003013 .sltiu, rowU 0x00000037 .lui]

/-- Rows 15 to 17 of R110: shifts. -/
def tableShift : List Row :=
  [rowR 0x00001033 .sll, rowR 0x00005033 .srl, rowR 0x40005033 .sra]

/-- Rows 18 to 25 of R110: loads and stores. -/
def tableLoadStore : List Row :=
  [rowI 0x00000003 .lb, rowI 0x00001003 .lh, rowI 0x00002003 .lw, rowI 0x00004003 .lbu,
   rowI 0x00005003 .lhu, rowS 0x00000023 .sb, rowS 0x00001023 .sh, rowS 0x00002023 .sw]

/-- Rows 26 to 33 of R110: branches and jumps. -/
def tableControl : List Row :=
  [rowSB 0x00000063 .beq, rowSB 0x00001063 .bne, rowSB 0x00004063 .blt, rowSB 0x00006063 .bltu,
   rowSB 0x00005063 .bge, rowSB 0x00007063 .bgeu, rowUJ 0x0000006F .jal, rowI 0x00000067 .jalr]

/-- The 33 rows in the table's order (R110). -/
def table : List Row := tableArith ++ tableArithImm ++ tableShift ++ tableLoadStore ++ tableControl

/-! ## The decoder (R103, R106) -/

/-- Why bytes are no instruction. -/
inductive Reject where
  /-- the word matches none of the 33 pairs (R112): the machine raises `UnknownInstruction` -/
  | unknownInstruction
  /-- fewer than the four bytes of an instruction word (R90) -/
  | tooShort
  deriving DecidableEq, Repr

/-- `w & mask(p) == id_bits(p)` (R108). -/
def Row.hits (r : Row) (w : Word) : Bool := w &&& r.mask == r.idBits

/-- `Classify(w)`: the first row in table order that the word matches (R106). -/
def classify (w : Word) : Option Row := table.find? (·.hits w)

/-- `Decode(w)`: exactly one instruction, or unknown (R103). -/
def decode (w : Word) : Except Reject Instr :=
  match classify w with
  | some r => .ok (r.build w)
  | none => .error .unknownInstruction

/-- The decoded record of a word that matches a row (R96, R103). -/
def decodeRecord (w : Word) : Except Reject Record :=
  match classify w with
  | some r => .ok (Codec.record r.fmt w)
  | none => .error .unknownInstruction

/-- The word whose bytes, low address first, are `b0 b1 b2 b3` (R44, R46: little-endian). -/
def wordOfBytes (b0 b1 b2 b3 : Byte) : Word := b3 ++ b2 ++ b1 ++ b0

/-- Byte `i` of a value, byte 0 the least significant (R44). -/
def byteOf (v : Word) (i : Nat) : Byte := v.extractLsb' (8 * i) 8

/-- Decode from bytes in memory order, with the bytes that follow the instruction (R44, R90). -/
def decodeBytes : List Byte → Except Reject (Instr × List Byte)
  | b0 :: b1 :: b2 :: b3 :: rest =>
    match decode (wordOfBytes b0 b1 b2 b3) with
    | .ok i => .ok (i, rest)
    | .error e => .error e
  | _ => .error .tooShort

/-! ## The encoder (R115) -/

/-- Format R: func7, rs2, rs1, func3, rd, opcode (R93, R115). -/
def encodeR (func7 : BitVec 7) (func3 : BitVec 3) (op : BitVec 7) (rd rs1 rs2 : RegIdx) : Word :=
  func7 ++ rs2 ++ rs1 ++ func3 ++ rd ++ op

/-- Format I: imm[11:0], rs1, func3, rd, opcode (R93, R115). -/
def encodeI (func3 : BitVec 3) (op : BitVec 7) (rd rs1 : RegIdx) (imm : Word) : Word :=
  imm.extractLsb' 0 12 ++ rs1 ++ func3 ++ rd ++ op

/-- Format S: imm[11:5], rs2, rs1, func3, imm[4:0], opcode (R93, R115). -/
def encodeS (func3 : BitVec 3) (op : BitVec 7) (rs1 rs2 : RegIdx) (imm : Word) : Word :=
  imm.extractLsb' 5 7 ++ rs2 ++ rs1 ++ func3 ++ imm.extractLsb' 0 5 ++ op

/-- Format SB: imm[12], imm[10:5], rs2, rs1, func3, imm[4:1], imm[11], opcode (R93, R115). -/
def encodeSB (func3 : BitVec 3) (op : BitVec 7) (rs1 rs2 : RegIdx) (imm : Word) : Word :=
  imm.extractLsb' 12 1 ++ imm.extractLsb' 5 6 ++ rs2 ++ rs1 ++ func3 ++ imm.extractLsb' 1 4
    ++ imm.extractLsb' 11 1 ++ op

/-- Format U: imm[31:12], rd, opcode (R93, R115). -/
def encodeU (op : BitVec 7) (rd : RegIdx) (imm : Word) : Word :=
  imm.extractLsb' 12 20 ++ rd ++ op

/-- Format UJ: imm[20], imm[10:1], imm[11], imm[19:12], rd, opcode (R93, R115). -/
def encodeUJ (op : BitVec 7) (rd : RegIdx) (imm : Word) : Word :=
  imm.extractLsb' 20 1 ++ imm.extractLsb' 1 10 ++ imm.extractLsb' 11 1 ++ imm.extractLsb' 12 8 ++ rd ++ op

/-- `Encode(op, fields)`: the word of a well-formed instruction (R110, R111, R115). -/
def encode : Instr → Word
  | .add rd rs1 rs2 => encodeR 0x00 0 0x33 rd rs1 rs2
  | .sub rd rs1 rs2 => encodeR 0x20 0 0x33 rd rs1 rs2
  | .xor rd rs1 rs2 => encodeR 0x00 4 0x33 rd rs1 rs2
  | .or rd rs1 rs2 => encodeR 0x00 6 0x33 rd rs1 rs2
  | .and rd rs1 rs2 => encodeR 0x00 7 0x33 rd rs1 rs2
  | .slt rd rs1 rs2 => encodeR 0x00 2 0x33 rd rs1 rs2
  | .sltu rd rs1 rs2 => encodeR 0x00 3 0x33 rd rs1 rs2
  | .addi rd rs1 imm => encodeI 0 0x13 rd rs1 imm
  | .xori rd rs1 imm => encodeI 4 0x13 rd rs1 imm
  | .ori rd rs1 imm => encodeI 6 0x13 rd rs1 imm
  | .andi rd rs1 imm => encodeI 7 0x13 rd rs1 imm
  | .slti rd rs1 imm => encodeI 2 0x13 rd rs1 imm
  | .sltiu rd rs1 imm => encodeI 3 0x13 rd rs1 imm
  | .lui rd imm => encodeU 0x37 rd imm
  | .sll rd rs1 rs2 => encodeR 0x00 1 0x33 rd rs1 rs2
  | .srl rd rs1 rs2 => encodeR 0x00 5 0x33 rd rs1 rs2
  | .sra rd rs1 rs2 => encodeR 0x20 5 0x33 rd rs1 rs2
  | .lb rd rs1 imm => encodeI 0 0x03 rd rs1 imm
  | .lh rd rs1 imm => encodeI 1 0x03 rd rs1 imm
  | .lw rd rs1 imm => encodeI 2 0x03 rd rs1 imm
  | .lbu rd rs1 imm => encodeI 4 0x03 rd rs1 imm
  | .lhu rd rs1 imm => encodeI 5 0x03 rd rs1 imm
  | .sb rs1 rs2 imm => encodeS 0 0x23 rs1 rs2 imm
  | .sh rs1 rs2 imm => encodeS 1 0x23 rs1 rs2 imm
  | .sw rs1 rs2 imm => encodeS 2 0x23 rs1 rs2 imm
  | .beq rs1 rs2 imm => encodeSB 0 0x63 rs1 rs2 imm
  | .bne rs1 rs2 imm => encodeSB 1 0x63 rs1 rs2 imm
  | .blt rs1 rs2 imm => encodeSB 4 0x63 rs1 rs2 imm
  | .bltu rs1 rs2 imm => encodeSB 6 0x63 rs1 rs2 imm
  | .bge rs1 rs2 imm => encodeSB 5 0x63 rs1 rs2 imm
  | .bgeu rs1 rs2 imm => encodeSB 7 0x63 rs1 rs2 imm
  | .jal rd imm => encodeUJ 0x6F rd imm
  | .jalr rd rs1 imm => encodeI 0 0x67 rd rs1 imm

/-- The encoded word's bytes in memory order (R44). -/
def encodeBytes (i : Instr) : List Byte :=
  [byteOf (encode i) 0, byteOf (encode i) 1, byteOf (encode i) 2, byteOf (encode i) 3]

/-- The instruction the decoder reads from a word numbered as spec/opcode_table.json numbers it (bit 0
least significant), the bits above `nbits` taken as 0; the word is laid out in memory order first. -/
def decodeTableWord (nbits w : Nat) : Option Instr :=
  let v : Word := BitVec.ofNat 32 (w % 2 ^ nbits)
  match decodeBytes [byteOf v 0, byteOf v 1, byteOf v 2, byteOf v 3] with
  | .ok (i, _) => some i
  | .error _ => none

end Sys2Proof
end

