-- ==== Sys2Proof/Config.lean ====
section
/-! DEFINITION. The constants the implementation fixes (R6) and the parameters the spec leaves open
(R6, last paragraph; 92_eei_decisions.md D6, D10, D12, D19). An open parameter is an opaque constant:
it has no body, so a claim proved of the model holds for every value of it. -/

namespace Sys2Proof.Config

open Sys2Proof

/-! Sizes and addresses (R6, R41). Addresses are natural numbers, the unsigned reading of a 32-bit address. -/

/-- INST_SIZE: the instruction segment is 0x0000 to 0x03FF. -/
def instSize : Nat := 1024
/-- DATA_BASE: the data segment is 0x0400 to 0x07FF. -/
def dataBase : Nat := 0x0400
/-- DATA_BASE + DATA_SIZE, the first address after the data segment. -/
def dataEnd : Nat := 0x0800
/-- HEAP_BASE: the heap segment is 0xB700 to 0xD6FF. -/
def heapBase : Nat := 0xB700
/-- HEAP_BASE + HEAP_SIZE, the first address after the heap segment. -/
def heapEnd : Nat := 0xD700
/-- HEAP_SIZE, the number of heap bytes. -/
def heapSize : Nat := 8192
/-- NBANK, the number of heap banks. -/
def nBank : Nat := 128
/-- BANK_SIZE, the bytes in one bank. -/
def bankSize : Nat := 64
/-- ALLOC_REG, the register that receives the result of heap-allocate (R24). -/
def allocReg : RegIdx := 28
/-- IMAGE_SIZE, the bytes of the start image (R241). -/
def imageSize : Nat := 2048

/-! The open parameters. -/

/-- HEAP_RESET_BYTES (R34, D6, U7): the value a heap byte, given by its offset from HEAP_BASE, holds
from reset until a store writes it. Free (DESIGN CHOICE, log entry 3). -/
opaque heapResetByte : Nat → Byte

/-- NarrowDevOperand for `sb` (R65, D10, U2): the upper 24 bits of the operand a value-taking routine
sees, as a function of `x[rs2]`. Free (DESIGN CHOICE, log entry 4). -/
opaque narrowHighByte : Word → BitVec 24

/-- NarrowDevOperand for `sh` (R65, D10, U2): the upper 16 bits of the operand a value-taking routine
sees, as a function of `x[rs2]`. Free (DESIGN CHOICE, log entry 4). -/
opaque narrowHighHalf : Word → BitVec 16

/-- ConsoleIn.char (R66, D12, U3): what the `k`-th console read returns if it reads a character.
Free (DESIGN CHOICE, log entry 5). -/
opaque consoleChar : Nat → Word

/-- ConsoleIn.int (R67, D12, U3): what the `k`-th console read returns if it reads an integer.
Free (DESIGN CHOICE, log entry 5). -/
opaque consoleInt : Nat → Word

/-- Whether a heap-free that raises has first removed the node that starts at the truncated bank index
of its operand (R78, D19, U9). Free (DESIGN CHOICE, log entry 6). -/
opaque failedFreeRemoves : Word → Bool

end Sys2Proof.Config
end

