-- ==== Sys2Proof/Machine/State.lean ====
section
/-! DEFINITION. The state of the machine as plain data (10_state.md), the outcomes of a step that are
no next state, and the state after reset (R34, R240). -/

namespace Sys2Proof.Machine

open Sys2Proof

/-- The error code `err` (R27, R210). -/
inductive ErrCode where
  /-- 0, no error -/
  | none
  | unknownInstruction
  | illegalOperation
  | pcOutOfBounds
  /-- kept as a name of the value set only: no rule raises it (R214; UNVERIFIED, log entry 20) -/
  | hostAllocationFailure
  deriving DecidableEq, Repr

/-- An event of the console output `OUT` (R60). -/
inductive Event where
  /-- VR_CHAR_OUT wrote a character (R61) -/
  | outChar (c : Byte)
  /-- VR_INT_OUT wrote a number, read as signed (R62) -/
  | outInt (v : Word)
  /-- VR_HEX_OUT wrote a number, read as unsigned (R63) -/
  | outHex (v : Word)
  /-- VR_CHAR_IN returned this value (R66) -/
  | inChar (v : Word)
  /-- VR_INT_IN returned this value (R67) -/
  | inInt (v : Word)
  /-- VR_DUMP_PC (R68) -/
  | dumpPc (p : Word)
  /-- VR_DUMP_REGS: x[0] to x[31] (R69) -/
  | dumpRegs (r : Vector Word 32)
  /-- VR_DUMP_WORD: an address and the word there (R70) -/
  | dumpWord (a w : Word)
  /-- the diagnostic of an error: the error, x[0] to x[31] and pc at the stop (R217) -/
  | diag (e : ErrCode) (r : Vector Word 32) (p : Word)
  deriving DecidableEq, Repr

/-- A node `(start_bank, length_in_banks)` of the allocation list (R29, R75). -/
structure Node where
  start : Nat
  len : Nat
  deriving DecidableEq, Repr

/-- The storage array (R28) as a list of the bytes that differ from what an unlisted address reads as
(`unlistedByte`), addresses strictly rising (`Memory.wf`). -/
abbrev Memory := List Host.Cell

/-- The state of the machine (10_state.md, opening paragraph). -/
structure State where
  /-- the general registers x[0] to x[31] (R20); read and written through `State.reg` and `State.setReg`
  (the cell of x[0]: DESIGN CHOICE, log entry 21) -/
  x : Vector Word 32
  /-- the program counter, the byte address of the instruction being executed (R25) -/
  pc : Word
  /-- the run flag (R26) -/
  run : Bool
  /-- the error code (R27) -/
  err : ErrCode
  /-- the storage array MEM (R28) -/
  mem : Memory
  /-- the allocation list ALLOC (R29) -/
  alloc : List Node
  /-- the console output OUT, oldest event first (R31, R60) -/
  out : List Event
  deriving DecidableEq, Repr

/-- Why a step has no next state although nothing refuses an instruction. The three errors of the
hardware are no faults here: the machine takes them, in a next state (R217). Both faults are raised by
`cycle` in states the spec describes no cycle from (R30, R36), which no run from reset reaches: safe. -/
inductive Fault where
  /-- `run = 1` while `err` is not `None`; raised by `cycle`; safe (DESIGN CHOICE, log entry 8) -/
  | errWhileRunning
  /-- `run = 1` while `u(pc) >= 1024`: fetch is never called there (R46); raised by `cycle`; safe
  (DESIGN CHOICE, log entry 8) -/
  | pcOutsideSegment
  deriving DecidableEq, Repr

/-- Why the model gives an instruction no meaning. -/
inductive Refusal where
  /-- the instruction of this mnemonic has no meaning in the model; raised by `exec`; safe -/
  | notModelled (mnemonic : String)
  /-- an address given to dump-memory-word whose 4 bytes are not all in the instruction and data segments: the spec says the behaviour is unspecified and a model should refuse it (R70, D16, U6);
  raised by `invoke`; safe (UNVERIFIED, log entry 7) -/
  | dumpWordOutsideImage (address : Word)
  deriving DecidableEq, Repr

/-- Registers, pc and status of R34 (pc and x[1] to x[31] by the spec's decision D6: UNVERIFIED, log entry 14).
The image is all zeros: nothing is listed, since the image is the input of reset (R241), placed by
`State.resetWithImage` (DESIGN CHOICE, log entry 2). The heap bytes are free (DESIGN CHOICE, log entry 3). -/
def State.reset : State where
  x := Vector.replicate 32 0
  pc := 0
  run := true
  err := .none
  mem := []
  alloc := []
  out := []

end Sys2Proof.Machine
end

