-- ==== Sys2Proof/Machine/Ops.lean ====
section
/-! DEFINITION. The named operations over registers, storage and status: register reads and writes (R20
to R23), bytes of the storage array and little-endian values (R28, R42, R44), fetch (R46), the error
entry (R217), the end of a cycle (R30 steps 5 and 6) and reset with an image (R241). -/

namespace Sys2Proof.Machine

open Sys2Proof

/-! ## Registers (R20 to R22) -/

/-- `x[i]`: index 0 always reads as 0 (R21). -/
def State.reg (s : State) (i : RegIdx) : Word := if i = 0 then 0 else s.x[i.toNat]'i.isLt

/-- `x[i] <- v`: a write to index 0 is discarded (R22). -/
def State.setReg (s : State) (i : RegIdx) (v : Word) : State :=
  if i = 0 then s else { s with x := s.x.set i.toNat v i.isLt }

/-- The 32 register values as a program reads them, for the dumps (R69, R217). -/
def State.regs (s : State) : Vector Word 32 := Vector.ofFn fun i => s.reg (BitVec.ofFin i)

/-- Step 5 of the cycle: `x[0] <- 0` (R30). -/
def State.clearX0 (s : State) : State := { s with x := s.x.set 0 0 }

/-- `pc <- t` (R11). -/
def State.setPc (s : State) (t : Word) : State := { s with pc := t }

/-- The address of the following instruction, `pc + 4` modulo 2^32 (R25, R33). -/
def State.nextPc (s : State) : Word := s.pc + 4

/-! ## The storage array (R28, R42, R44) -/

/-- The addresses that hold storage: the instruction and data segments and the heap segment (R28, R42). -/
def isStorage (a : Nat) : Bool :=
  decide (a < Config.dataEnd) || (decide (Config.heapBase ≤ a) && decide (a < Config.heapEnd))

/-- What an unlisted address holds: no known value in the heap segment, whose reset bytes are open (R34,
D6), and 0 elsewhere (the all-zero image of `State.reset`). DESIGN CHOICE, log entries 2 and 3. -/
def unlistedByte (a : Nat) : Option Byte :=
  if Config.heapBase ≤ a ∧ a < Config.heapEnd then none else some 0

/-- `MEM[a]` (R28). A heap byte that no store has written is the free byte of HEAP_RESET_BYTES. -/
def Memory.byteAt (m : Memory) (a : Nat) : Byte :=
  match m.lookup a with
  | some b => b
  | none => (unlistedByte a).getD (Config.heapResetByte (a - Config.heapBase))

/-- Put a cell in its place in a list with rising addresses, or take the address out when the byte is
what an unlisted address holds. -/
def Memory.put (a : Nat) (b : Byte) : Memory → Memory
  | [] => if unlistedByte a = some b then [] else [(a, b)]
  | (c, d) :: rest =>
    if a < c then (if unlistedByte a = some b then (c, d) :: rest else (a, b) :: (c, d) :: rest)
    else if a = c then (if unlistedByte a = some b then rest else (a, b) :: rest)
    else (c, d) :: Memory.put a b rest

/-- `MEM[a] <- b`; bytes outside the storage are never stored (R28). -/
def Memory.setByte (m : Memory) (a : Nat) (b : Byte) : Memory :=
  if isStorage a then Memory.put a b m else m

/-- The canonical form of a memory: addresses strictly rising, each in the storage, and no entry equal
to what an unlisted address holds. -/
abbrev Memory.wf (m : Memory) : Prop :=
  m.Pairwise (fun p q => p.1 < q.1) ∧ ∀ c ∈ m, isStorage c.1 = true ∧ unlistedByte c.1 ≠ some c.2

/-- The number of bytes an access covers: 1, 2 or 4 and no other (R43). -/
inductive Width where
  | byte | half | word
  deriving DecidableEq, Repr

/-- `n` of `MemRead(addr, n)` and `MemWrite(addr, n, v)` (R43). -/
def widthBytes : Width → Nat
  | .byte => 1
  | .half => 2
  | .word => 4

/-- `MEM[a+n-1] ++ ... ++ MEM[a]`, zero-extended to 32 bits: byte `a` is the least significant (R44;
the spec's decision D1: UNVERIFIED, log entry 10). -/
def Memory.readBytes (m : Memory) (a : Nat) : Width → Word
  | .byte => (m.byteAt a).setWidth 32
  | .half => (m.byteAt (a + 1) ++ m.byteAt a : BitVec 16).setWidth 32
  | .word => m.byteAt (a + 3) ++ m.byteAt (a + 2) ++ m.byteAt (a + 1) ++ m.byteAt a

/-- `MEM[a+i] <- v[8i+7 : 8i]` for `i` in `0 .. n-1` (R44, R49). -/
def Memory.writeBytes (m : Memory) (a : Nat) (v : Word) : Nat → Memory
  | 0 => m
  | n + 1 => (Memory.writeBytes m a v n).setByte (a + n) (byteOf v n)

/-- `Fetch(pc)`: four bytes straight from the storage array, past the dispatcher, at any alignment (R46; the
spec's decisions D7 and D8: UNVERIFIED, log entries 15 and 16). -/
def State.fetch (s : State) : Word := s.mem.readBytes s.pc.toNat .word

/-! ## Taking an error (R217) and the end of a cycle (R30) -/

/-- `raise E`, the only exception entry: the run flag is cleared, the error recorded, and one diagnostic
with the registers and pc at the stop appended; nothing else changes (R217). There is no return from it
(R219). The diagnostic is an event, not text (log entry 19). -/
def State.raise (s : State) (e : ErrCode) : State :=
  { s with run := false, err := e, out := s.out ++ [.diag e s.regs s.pc] }

/-- Steps 5 and 6 of the cycle, on the state the instruction left: skipped when the instruction raised
an error; else x[0] is cleared and the pc bound checked (R30, R213). The check is made
also when the instruction has just halted the machine (the spec's decision D5: UNVERIFIED, log entry 13). -/
def endCycle (t : State) : State :=
  if t.err ≠ .none then t
  else if Config.instSize ≤ t.pc.toNat then t.clearX0.raise .pcOutOfBounds
  else t.clearX0

/-! ## Reset with an image (R240, R241) -/

/-- The bytes of a list stored one after the other from address `a`. -/
def Memory.load (m : Memory) (a : Nat) : List Byte → Memory
  | [] => m
  | b :: bs => Memory.load (m.setByte a b) (a + 1) bs

/-- Reset: `MEM[i] <- image[i]` for the 2048 bytes of the image, every other piece of state as R34 says.
An image of another size is no input reset accepts (R241, U15). -/
def State.resetWithImage (image : List Byte) : Option State :=
  if image.length = Config.imageSize then some { State.reset with mem := Memory.load [] 0 image }
  else none

end Sys2Proof.Machine
end

