-- ==== Sys2Proof/Machine/Heap.lean ====
section
/-! DEFINITION. The heap bank allocator: 128 banks of 64 bytes, a sorted list of allocated nodes,
first-fit placement (R75 to R81). -/

namespace Sys2Proof.Machine

open Sys2Proof

/-- The first bank after the node. -/
def Node.stop (n : Node) : Nat := n.start + n.len

/-- Nodes sorted and never overlapping, every length at least 1, all within the 128 banks (R29, R75). -/
abbrev allocWf (l : List Node) : Prop :=
  l.Pairwise (fun p q => p.stop ≤ q.start) ∧ ∀ n ∈ l, 1 ≤ n.len ∧ n.stop ≤ Config.nBank

/-- `BankAddr(k) = 0xB700 + 64k` (R76). -/
def bankAddr (k : Nat) : Nat := Config.heapBase + Config.bankSize * k

/-- The node covers byte address `b` (R75, R79). -/
def Node.covers (n : Node) (b : Nat) : Bool :=
  decide (bankAddr n.start ≤ b) && decide (b < bankAddr n.stop)

/-- `IsValidRange(a, n)`: every byte of the range lies in some allocated node (R79). -/
def isValidRange (l : List Node) (a n : Nat) : Bool :=
  (List.range n).all fun i => l.any fun nd => nd.covers (a + i)

/-- The first gap of at least `need` banks at or after bank `gap`, and the list with the new node in it
(R77, the loop and the trailing gap). -/
def firstFit (need gap : Nat) : List Node → Option (Nat × List Node)
  | [] => if gap + need ≤ Config.nBank then some (gap, [⟨gap, need⟩]) else none
  | nd :: rest =>
    if gap + need ≤ nd.start then some (gap, ⟨gap, need⟩ :: nd :: rest)
    else (firstFit need nd.stop rest).map fun r => (r.1, nd :: r.2)

/-- `ceil(size / 64)` (R77). -/
def banksNeeded (size : Int) : Nat := (size.toNat + (Config.bankSize - 1)) / Config.bankSize

/-- `Allocate(size)`: the address of the new block and the list with it, or 0 and the list unchanged (R77). -/
def allocate (size : Int) (l : List Node) : Word × List Node :=
  if size ≤ 0 ∨ (Config.heapSize : Int) < size then (0, l)
  else match firstFit (banksNeeded size) 0 l with
    | some (g, l') => (BitVec.ofNat 32 (bankAddr g), l')
    | none => (0, l)

/-- The address is on a bank boundary (R76). -/
def onBankBoundary (a : Word) : Bool :=
  decide (Config.heapBase ≤ a.toNat) && decide ((a.toNat - Config.heapBase) % Config.bankSize = 0)

/-- The bank index of an address on a bank boundary (R76). -/
def bankIndex (a : Word) : Nat := (a.toNat - Config.heapBase) / Config.bankSize

/-- The list without the node that starts at bank `k`; at most one does (R75, R78). -/
def removeNode (k : Nat) (l : List Node) : List Node := l.eraseP fun nd => nd.start == k

/-- `Free(a)` when it succeeds: the list afterwards; `none` when it raises (R78). -/
def free? (a : Word) (l : List Node) : Option (List Node) :=
  if a = 0 then some l
  else if onBankBoundary a && l.any (fun nd => nd.start == bankIndex a) then some (removeNode (bankIndex a) l)
  else none

/-- The truncated bank index of any address: `(u(a) - 0xB700) / 64` toward zero (R78, D19). -/
def truncIndex (a : Word) : Int := Int.tdiv ((a.toNat : Int) - Config.heapBase) Config.bankSize

/-- `ALLOC` after a `Free(a)` that raised: unchanged, or without the node at the truncated index; the
spec leaves which open (R78, D19, U9; DESIGN CHOICE, log entry 6). -/
def allocAfterFailedFree (a : Word) (l : List Node) : List Node :=
  if l.any (fun nd => (nd.start : Int) == truncIndex a) && Config.failedFreeRemoves a
  then removeNode (truncIndex a).toNat l else l

end Sys2Proof.Machine
end

