-- ==== Sys2Proof/Machine/Dispatcher.lean ====
section
/-! DEFINITION. The Memory Dispatcher and the eleven virtual routines (R47 to R73). -/

namespace Sys2Proof.Machine

open Sys2Proof

/-! ## Regions (R47): ranges end without wrap-around (R43; the spec's decision D9: UNVERIFIED, log entry 17), and
no alignment is asked for (R45; the spec's decision D7: UNVERIFIED, log entry 15) -/

/-- `InData(a, n)` (R47). -/
def inData (a n : Nat) : Bool := decide (Config.dataBase ≤ a) && decide (a + n ≤ Config.dataEnd)

/-- `InInstData(a, n)` (R47). -/
def inInstData (a n : Nat) : Bool := decide (a + n ≤ Config.dataEnd)

/-- `InHeap(a, n)` (R47). -/
def inHeap (a n : Nat) : Bool := decide (Config.heapBase ≤ a) && decide (a + n ≤ Config.heapEnd)

/-- The nine write routines (R47, R73). -/
inductive WriteRoutine where
  | charOut | intOut | hexOut | halt | dumpPc | dumpRegs | dumpWord | heapAlloc | heapFree
  deriving DecidableEq, Repr

/-- The two read routines (R47, R73). -/
inductive ReadRoutine where
  | charIn | intIn
  deriving DecidableEq, Repr

/-- `WriteRoutine(a)`: the routine whose address this is, by the start address alone (R47, R48, R73). -/
def writeRoutineAt (a : Word) : Option WriteRoutine :=
  if a = 0x0800 then some .charOut
  else if a = 0x0804 then some .intOut
  else if a = 0x0808 then some .hexOut
  else if a = 0x080C then some .halt
  else if a = 0x0820 then some .dumpPc
  else if a = 0x0824 then some .dumpRegs
  else if a = 0x0828 then some .dumpWord
  else if a = 0x0830 then some .heapAlloc
  else if a = 0x0834 then some .heapFree
  else none

/-- `ReadRoutine(a)`: the routine whose address this is, by the start address alone (R47, R48, R73). -/
def readRoutineAt (a : Word) : Option ReadRoutine :=
  if a = 0x0812 then some .charIn
  else if a = 0x0816 then some .intIn
  else none

/-! ## What a dispatcher call can do -/

/-- The answer of the dispatcher: a value and the state with the call's effects; or `IllegalOperation`
is to be raised in the state given (it differs from the state before only in `ALLOC`, R78); or the spec
gives the call no behaviour. -/
inductive Access (α : Type) where
  | done (v : α) (s : State)
  | illegal (s : State)
  | refused (r : Refusal)
  deriving Repr

/-- `OUT <- OUT ++ [e]` (R11). -/
def State.emit (s : State) (e : Event) : State := { s with out := s.out ++ [e] }

/-! ## The virtual routines (R60 to R72) -/

/-- `DevOperand(n, x[rs2])`: the whole register for `sw`; for `sb` and `sh` the low bytes of the register
below bits the spec leaves open (R65, D10; DESIGN CHOICE, log entry 4). -/
def devOperand (w : Width) (v : Word) : Word :=
  match w with
  | .byte => Config.narrowHighByte v ++ v.setWidth 8
  | .half => Config.narrowHighHalf v ++ v.setWidth 16
  | .word => v

/-- Is the event a console read (R31, R66)? -/
def Event.isRead : Event → Bool
  | .inChar _ => true
  | .inInt _ => true
  | _ => false

/-- `k`, the number of console reads already in `OUT` (R31, R66). -/
def readCount (out : List Event) : Nat := out.countP Event.isRead

/-- VR_CHAR_OUT: the low 8 bits of the operand, which are those of `x[rs2]` for every width (R61, R65). -/
def charOut (v : Word) (s : State) : Access Unit := .done () (s.emit (.outChar (v.setWidth 8)))

/-- VR_INT_OUT (R62). -/
def intOut (op : Word) (s : State) : Access Unit := .done () (s.emit (.outInt op))

/-- VR_HEX_OUT (R63). -/
def hexOut (op : Word) (s : State) : Access Unit := .done () (s.emit (.outHex op))

/-- VR_HALT: `run <- 0`, the operand ignored, nothing printed (R64). -/
def halt (s : State) : Access Unit := .done () { s with run := false }

/-- VR_DUMP_PC: the address of the store itself (R68). -/
def dumpPc (s : State) : Access Unit := .done () (s.emit (.dumpPc s.pc))

/-- VR_DUMP_REGS: the registers at the start of the store (R69). -/
def dumpRegs (s : State) : Access Unit := .done () (s.emit (.dumpRegs s.regs))

/-- VR_DUMP_WORD: defined when the four bytes lie in the instruction and data segments; elsewhere the
spec says the behaviour is unspecified and a model should refuse it (R70, D16, U6; UNVERIFIED, log entry 7). -/
def dumpWord (op : Word) (s : State) : Access Unit :=
  if inInstData op.toNat 4 then .done () (s.emit (.dumpWord op (s.mem.readBytes op.toNat .word)))
  else .refused (.dumpWordOutsideImage op)

/-- VR_ALLOC: `x[28] <- Allocate(s(op))` (R71). -/
def heapAlloc (op : Word) (s : State) : Access Unit :=
  let r := allocate op.toInt s.alloc
  .done () ({ s with alloc := r.2 }.setReg Config.allocReg r.1)

/-- VR_FREE: `Free(op)`, which may raise (R72, R78). -/
def heapFree (op : Word) (s : State) : Access Unit :=
  match free? op s.alloc with
  | some l => .done () { s with alloc := l }
  | none => .illegal { s with alloc := allocAfterFailedFree op s.alloc }

/-- Run the routine for a store of width `w` of register value `v` (R49 step 1, R61 to R72). -/
def invoke (r : WriteRoutine) (w : Width) (v : Word) (s : State) : Access Unit :=
  match r with
  | .charOut => charOut v s
  | .intOut => intOut (devOperand w v) s
  | .hexOut => hexOut (devOperand w v) s
  | .halt => halt s
  | .dumpPc => dumpPc s
  | .dumpRegs => dumpRegs s
  | .dumpWord => dumpWord (devOperand w v) s
  | .heapAlloc => heapAlloc (devOperand w v) s
  | .heapFree => heapFree (devOperand w v) s

/-- VR_CHAR_IN and VR_INT_IN: the host's value for this console read, recorded in `OUT` (R66, R67). -/
def consoleRead (r : ReadRoutine) (s : State) : Word × State :=
  match r with
  | .charIn => (Config.consoleChar (readCount s.out), s.emit (.inChar (Config.consoleChar (readCount s.out))))
  | .intIn => (Config.consoleInt (readCount s.out), s.emit (.inInt (Config.consoleInt (readCount s.out))))

/-! ## The two dispatch algorithms (R49, R50) -/

/-- `MemWrite(a, n, v)` in the source's order (R49). -/
def memWrite (s : State) (a : Word) (w : Width) (v : Word) : Access Unit :=
  match writeRoutineAt a with
  | some r => invoke r w v s
  | none =>
    if inData a.toNat (widthBytes w) then
      .done () { s with mem := s.mem.writeBytes a.toNat v (widthBytes w) }
    else if inHeap a.toNat (widthBytes w) then
      if isValidRange s.alloc a.toNat (widthBytes w) then
        .done () { s with mem := s.mem.writeBytes a.toNat v (widthBytes w) }
      else .illegal s
    else .illegal s

/-- `MemRead(a, n)`, the value zero-extended to 32 bits (R50); a routine's value keeps its low `8n` bits (the
spec's decision D11: UNVERIFIED, log entry 18). -/
def memRead (s : State) (a : Word) (w : Width) : Access Word :=
  match readRoutineAt a with
  | some r => .done (zext (8 * widthBytes w) (consoleRead r s).1) (consoleRead r s).2
  | none =>
    if inInstData a.toNat (widthBytes w) then .done (s.mem.readBytes a.toNat w) s
    else if inHeap a.toNat (widthBytes w) then
      if isValidRange s.alloc a.toNat (widthBytes w) then .done (s.mem.readBytes a.toNat w) s
      else .illegal s
    else .illegal s

end Sys2Proof.Machine
end

