-- ==== Sys2Proof/Machine/Operands.lean ====
section
/-! DEFINITION. The operand forms: the one addressing mode (R170), and the shapes an instruction's effect
takes around its operands (R33, R140, R179, R190). All register reads come from the state before the
instruction (R23; the spec's decision D3: UNVERIFIED, log entry 11). -/

namespace Sys2Proof.Machine

open Sys2Proof

/-- What executing an instruction answers. -/
abbrev Result := Host.Outcome State Fault Refusal

/-- `ea = x[rs1] + imm` modulo 2^32 (R170). -/
def State.ea (s : State) (rs1 : RegIdx) (imm : Word) : Word := s.reg rs1 + imm

/-- An instruction whose whole effect is `x[rd] <- v; pc <- pc + 4` (R140). -/
def writeReg (rd : RegIdx) (v : Word) (s : State) : Result :=
  .next ((s.setReg rd v).setPc s.nextPc)

/-- `x[rd] <- f(x[rs1], x[rs2]); pc <- pc + 4` (R140, format R). -/
def binary (f : Word → Word → Word) (rd rs1 rs2 : RegIdx) (s : State) : Result :=
  writeReg rd (f (s.reg rs1) (s.reg rs2)) s

/-- `x[rd] <- f(x[rs1], imm); pc <- pc + 4` (R140, format I). -/
def binaryImm (f : Word → Word → Word) (rd rs1 : RegIdx) (imm : Word) (s : State) : Result :=
  writeReg rd (f (s.reg rs1) imm) s

/-- A load: one dispatcher read at the effective address, then `x[rd] <- ext(value); pc <- pc + 4`; when
the read raises, nothing but the error entry (R179, R218; the spec's decision D4: UNVERIFIED, log entry 12). -/
def load (w : Width) (ext : Word → Word) (rd rs1 : RegIdx) (imm : Word) (s : State) : Result :=
  match memRead s (s.ea rs1 imm) w with
  | .done v s' => writeReg rd (ext v) s'
  | .illegal s' => .next (s'.raise .illegalOperation)
  | .refused r => .refused r

/-- A store: one dispatcher write of `x[rs2]` at the effective address, then `pc <- pc + 4`; when the
write raises, nothing but the error entry (R179, R181, R218; the spec's decision D4: UNVERIFIED, log entry 12). -/
def store (w : Width) (rs1 rs2 : RegIdx) (imm : Word) (s : State) : Result :=
  match memWrite s (s.ea rs1 imm) w (s.reg rs2) with
  | .done _ s' => .next (s'.setPc s'.nextPc)
  | .illegal s' => .next (s'.raise .illegalOperation)
  | .refused r => .refused r

/-- A conditional branch: `pc + imm` when the condition on the two registers holds, else `pc + 4` (R190). -/
def branch (cond : Word → Word → Bool) (rs1 rs2 : RegIdx) (imm : Word) (s : State) : Result :=
  .next (s.setPc (if cond (s.reg rs1) (s.reg rs2) then s.pc + imm else s.nextPc))

/-- A jump: `x[rd] <- pc + 4; pc <- t`, the target computed before the link is written (R190, R197, R198). -/
def jump (rd : RegIdx) (t : Word) (s : State) : Result :=
  .next ((s.setReg rd s.nextPc).setPc t)

end Sys2Proof.Machine
end

