-- ==== Sys2Proof/Machine/Arith.lean ====
section
/-! DEFINITION. Arithmetic, logic, comparison and load upper immediate (40_arith_logic.md, R140 to R156). -/

namespace Sys2Proof.Machine

open Sys2Proof

/-- `add` (R141). -/
def execAdd (rd rs1 rs2 : RegIdx) (s : State) : Result := binary (fun a b => a + b) rd rs1 rs2 s

/-- `sub` (R142). -/
def execSub (rd rs1 rs2 : RegIdx) (s : State) : Result := binary (fun a b => a - b) rd rs1 rs2 s

/-- `xor` (R143). -/
def execXor (rd rs1 rs2 : RegIdx) (s : State) : Result := binary (fun a b => a ^^^ b) rd rs1 rs2 s

/-- `or` (R144). -/
def execOr (rd rs1 rs2 : RegIdx) (s : State) : Result := binary (fun a b => a ||| b) rd rs1 rs2 s

/-- `and` (R145). -/
def execAnd (rd rs1 rs2 : RegIdx) (s : State) : Result := binary (fun a b => a &&& b) rd rs1 rs2 s

/-- `slt` (R146). -/
def execSlt (rd rs1 rs2 : RegIdx) (s : State) : Result := binary (fun a b => boolWord (lts a b)) rd rs1 rs2 s

/-- `sltu` (R147). -/
def execSltu (rd rs1 rs2 : RegIdx) (s : State) : Result := binary (fun a b => boolWord (ltu a b)) rd rs1 rs2 s

/-- `addi` (R148). -/
def execAddi (rd rs1 : RegIdx) (imm : Word) (s : State) : Result := binaryImm (fun a b => a + b) rd rs1 imm s

/-- `xori` (R149). -/
def execXori (rd rs1 : RegIdx) (imm : Word) (s : State) : Result := binaryImm (fun a b => a ^^^ b) rd rs1 imm s

/-- `ori` (R150). -/
def execOri (rd rs1 : RegIdx) (imm : Word) (s : State) : Result := binaryImm (fun a b => a ||| b) rd rs1 imm s

/-- `andi` (R151). -/
def execAndi (rd rs1 : RegIdx) (imm : Word) (s : State) : Result := binaryImm (fun a b => a &&& b) rd rs1 imm s

/-- `slti` (R152). -/
def execSlti (rd rs1 : RegIdx) (imm : Word) (s : State) : Result :=
  binaryImm (fun a b => boolWord (lts a b)) rd rs1 imm s

/-- `sltiu`: the sign-extended immediate read as unsigned (R153). -/
def execSltiu (rd rs1 : RegIdx) (imm : Word) (s : State) : Result :=
  binaryImm (fun a b => boolWord (ltu a b)) rd rs1 imm s

/-- `lui`: the immediate as decoded, no register read (R154). -/
def execLui (rd : RegIdx) (imm : Word) (s : State) : Result := writeReg rd imm s

end Sys2Proof.Machine
end

