-- ==== Sys2Proof/Machine/Control.lean ====
section
/-! DEFINITION. Branches and jumps (43_control_transfer.md, R190 to R202). The immediate is already the byte
offset; no bit of a target is cleared and no target is refused (R190, R198, R199). -/

namespace Sys2Proof.Machine

open Sys2Proof

/-- `beq` (R191). -/
def execBeq (rs1 rs2 : RegIdx) (imm : Word) (s : State) : Result := branch eqw rs1 rs2 imm s

/-- `bne` (R192). -/
def execBne (rs1 rs2 : RegIdx) (imm : Word) (s : State) : Result :=
  branch (fun a b => !eqw a b) rs1 rs2 imm s

/-- `blt` (R193). -/
def execBlt (rs1 rs2 : RegIdx) (imm : Word) (s : State) : Result := branch lts rs1 rs2 imm s

/-- `bltu` (R194). -/
def execBltu (rs1 rs2 : RegIdx) (imm : Word) (s : State) : Result := branch ltu rs1 rs2 imm s

/-- `bge` (R195). -/
def execBge (rs1 rs2 : RegIdx) (imm : Word) (s : State) : Result := branch ges rs1 rs2 imm s

/-- `bgeu` (R196). -/
def execBgeu (rs1 rs2 : RegIdx) (imm : Word) (s : State) : Result := branch geu rs1 rs2 imm s

/-- `jal`: the target is relative to the jump itself (R197). -/
def execJal (rd : RegIdx) (imm : Word) (s : State) : Result := jump rd (s.pc + imm) s

/-- `jalr`: the target is `x[rs1] + imm` with `x[rs1]` as it was before the link is written (R23, R198;
the spec's decision D3: UNVERIFIED, log entry 11). -/
def execJalr (rd rs1 : RegIdx) (imm : Word) (s : State) : Result := jump rd (s.reg rs1 + imm) s

end Sys2Proof.Machine
end

