-- ==== Sys2Proof/Machine/LoadStore.lean ====
section
/-! DEFINITION. Loads and stores (42_loads_stores.md, R170 to R181), through which the console, the halt,
the dumps and the heap allocator are reached too. -/

namespace Sys2Proof.Machine

open Sys2Proof

/-- `lb`: one byte, sign-extended (R171). -/
def execLb (rd rs1 : RegIdx) (imm : Word) (s : State) : Result := load .byte (sext 8) rd rs1 imm s

/-- `lh`: two bytes, sign-extended (R172). -/
def execLh (rd rs1 : RegIdx) (imm : Word) (s : State) : Result := load .half (sext 16) rd rs1 imm s

/-- `lw`: four bytes, no extension (R173). -/
def execLw (rd rs1 : RegIdx) (imm : Word) (s : State) : Result := load .word id rd rs1 imm s

/-- `lbu`: one byte, zero-extended (R174). -/
def execLbu (rd rs1 : RegIdx) (imm : Word) (s : State) : Result := load .byte (zext 8) rd rs1 imm s

/-- `lhu`: two bytes, zero-extended (R175). -/
def execLhu (rd rs1 : RegIdx) (imm : Word) (s : State) : Result := load .half (zext 16) rd rs1 imm s

/-- `sb`: the low byte of x[rs2] (R176). -/
def execSb (rs1 rs2 : RegIdx) (imm : Word) (s : State) : Result := store .byte rs1 rs2 imm s

/-- `sh`: the low two bytes of x[rs2] (R177). -/
def execSh (rs1 rs2 : RegIdx) (imm : Word) (s : State) : Result := store .half rs1 rs2 imm s

/-- `sw`: the four bytes of x[rs2] (R178). -/
def execSw (rs1 rs2 : RegIdx) (imm : Word) (s : State) : Result := store .word rs1 rs2 imm s

end Sys2Proof.Machine
end

