-- ==== Sys2Proof/Machine/Shift.lean ====
section
/-! DEFINITION. The shifts (41_shifts.md, R160 to R164). The amount is the whole signed value of x[rs2];
no bits are masked off before the range tests. -/

namespace Sys2Proof.Machine

open Sys2Proof

/-- `sll` of a value by an amount: 0 when the amount is below 0 or at least 32 (R161). -/
def shiftLeft (v amount : Word) : Word :=
  if amount.toInt < 0 ∨ 32 ≤ amount.toInt then 0 else v <<< amount.toInt.toNat

/-- `srl` of a value by an amount: 0 when the amount is below 0 or at least 32 (R162). -/
def shiftRight (v amount : Word) : Word :=
  if amount.toInt < 0 ∨ 32 ≤ amount.toInt then 0 else v >>> amount.toInt.toNat

/-- `sra` of a value by an amount: 0 when the amount is below 0, else the arithmetic shift by the amount
modulo 32 (R163). -/
def shiftRightArith (v amount : Word) : Word :=
  if amount.toInt < 0 then 0 else v.sshiftRight (amount.toInt.toNat % 32)

/-- `sll` (R161). -/
def execSll (rd rs1 rs2 : RegIdx) (s : State) : Result := binary shiftLeft rd rs1 rs2 s

/-- `srl` (R162). -/
def execSrl (rd rs1 rs2 : RegIdx) (s : State) : Result := binary shiftRight rd rs1 rs2 s

/-- `sra` (R163). -/
def execSra (rd rs1 rs2 : RegIdx) (s : State) : Result := binary shiftRightArith rd rs1 rs2 s

end Sys2Proof.Machine
end

