-- ==== Sys2Proof/Machine/Cycle.lean ====
section
/-! DEFINITION. The cycle of the run loop (R30) and the end of a run (R35). -/

namespace Sys2Proof.Machine

open Sys2Proof

/-- One cycle: fetch, decode, execute, clear x[0], check pc (R30). An unknown word raises
`UnknownInstruction` before any register is read (R211). When `run = 0` nothing happens any more: the
state stays as it is (R35; DESIGN CHOICE, log entry 9). The two faults stand for states no cycle starts in (R36;
DESIGN CHOICE, log entry 8). -/
def cycle (s : State) : Host.Outcome State Fault Refusal :=
  if s.run = false then .next s
  else if s.err ≠ .none then .fault .errWhileRunning
  else if Config.instSize ≤ s.pc.toNat then .fault .pcOutsideSegment
  else match decode s.fetch with
    | .error _ => .next (s.raise .unknownInstruction)
    | .ok i =>
      match exec i s with
      | .next t => .next (endCycle t)
      | .fault f => .fault f
      | .refused r => .refused r

/-- The word of `nbits` bits stored at `pc` (the bits above are zero), for `State.withFetchWord`. -/
def State.placeWord (s : State) (nbits w : Nat) : State :=
  { s with mem := s.mem.writeBytes s.pc.toNat (BitVec.ofNat 32 (w % 2 ^ nbits)) 4 }

end Sys2Proof.Machine
end

