-- ==== Sys2Proof/Machine/Step.lean ====
section
/-! DEFINITION. The machine's step, and the placing of an instruction where the next step fetches it. -/

namespace Sys2Proof.Machine

open Sys2Proof

/-- One step is one cycle of the run loop (R5, R30). -/
def step (s : State) : Host.Outcome State Fault Refusal := cycle s

/-- `s` with an instruction word, numbered as spec/opcode_table.json numbers its bits, at the address the
next step fetches from. It stands for the load of an image that holds the word there (R241; DESIGN CHOICE, log entry 2). -/
def State.withFetchWord (s : State) (nbits w : Nat) : State := s.placeWord nbits w

end Sys2Proof.Machine
end

