-- ==== Sys2Proof/Safety.lean ====
section
/-! DEFINITION. The terms claims are stated in: the invariant of a run (R36), what an instruction changes and
what it leaves (frames), which accesses memory permits (R52), the ends of a run (R35) and what the host
observes of them (D13, D14). -/

namespace Sys2Proof.Machine

open Sys2Proof

/-! ## The invariant -/

/-- The invariant every cycle keeps (R36, with R27, R28, R35 and R75): the storage of x[0] is 0, the memory and
the allocation list have their form, `err` is never the error the hardware does not raise, and while the
machine runs there is no error and the pc is in the instruction segment. -/
structure Inv (s : State) : Prop where
  x0 : s.x[0] = 0
  mem : s.mem.wf
  alloc : allocWf s.alloc
  err : s.err ≠ .hostAllocationFailure
  running : s.run = true → s.err = .none ∧ s.pc.toNat < 1024

/-- The state starts a cycle (R30, R36): the run flag is set, there is no error, and the pc is in bounds. -/
structure Running (s : State) : Prop where
  run : s.run = true
  err : s.err = .none
  pc : s.pc.toNat < 1024

/-! ## Frames -/

/-- Every byte of memory reads as before. -/
def SameMem (s t : State) : Prop := ∀ a, t.mem.byteAt a = s.mem.byteAt a

/-- `t` is `s` with `x[rd] <- v` (discarded for `rd = 0`, R22) and `pc <- target`, and nothing else changed. -/
structure WritesReg (s t : State) (rd : RegIdx) (v target : Word) : Prop where
  dest : t.reg rd = if rd = 0 then 0 else v
  others : ∀ i, i ≠ rd → t.reg i = s.reg i
  pc : t.pc = target
  run : t.run = s.run
  err : t.err = s.err
  mem : SameMem s t
  alloc : t.alloc = s.alloc
  out : t.out = s.out

/-- `t` is `s` with `pc <- target` and nothing else changed. -/
structure MovesPc (s t : State) (target : Word) : Prop where
  regs : ∀ i, t.reg i = s.reg i
  pc : t.pc = target
  run : t.run = s.run
  err : t.err = s.err
  mem : SameMem s t
  alloc : t.alloc = s.alloc
  out : t.out = s.out

/-- `t` is `s` after a store whose routine appended one event: `OUT` and the pc changed, nothing else. -/
structure Emits (s t : State) (e : Event) : Prop where
  regs : ∀ i, t.reg i = s.reg i
  pc : t.pc = s.pc + 4
  run : t.run = s.run
  err : t.err = s.err
  mem : SameMem s t
  alloc : t.alloc = s.alloc
  out : t.out = s.out ++ [e]

/-- `t` is `s` after a load that read a value from the console: `x[rd] <- v`, one event, and the pc (R66, R67). -/
structure ReadsConsole (s t : State) (rd : RegIdx) (v : Word) (e : Event) : Prop where
  dest : t.reg rd = if rd = 0 then 0 else v
  others : ∀ i, i ≠ rd → t.reg i = s.reg i
  pc : t.pc = s.pc + 4
  run : t.run = s.run
  err : t.err = s.err
  mem : SameMem s t
  alloc : t.alloc = s.alloc
  out : t.out = s.out ++ [e]

/-- `t` is `s` after a plain store of the low `n` bytes of `v` at address `a` (R44, R49): those bytes and the pc
changed, nothing else. -/
structure Stores (s t : State) (a n : Nat) (v : Word) : Prop where
  bytes : ∀ k, k < n → t.mem.byteAt (a + k) = v.extractLsb' (8 * k) 8
  rest : ∀ b, b < a ∨ a + n ≤ b → t.mem.byteAt b = s.mem.byteAt b
  regs : ∀ i, t.reg i = s.reg i
  pc : t.pc = s.pc + 4
  run : t.run = s.run
  err : t.err = s.err
  alloc : t.alloc = s.alloc
  out : t.out = s.out

/-- `t` is `s` after a heap routine that raised nothing (R71, R72): `ALLOC` is `l`, the pc moved on, and of the
registers at most x28 changed, to `r`. -/
structure HeapCall (s t : State) (l : List Node) (r : Word) : Prop where
  result : t.reg 28 = r
  others : ∀ i, i ≠ 28 → t.reg i = s.reg i
  alloc : t.alloc = l
  pc : t.pc = s.pc + 4
  run : t.run = s.run
  err : t.err = s.err
  mem : SameMem s t
  out : t.out = s.out

/-- `t` is `s` after a store to the halt routine (R64): the run flag is cleared and the pc moved on. -/
structure Halts (s t : State) : Prop where
  run : t.run = false
  regs : ∀ i, t.reg i = s.reg i
  pc : t.pc = s.pc + 4
  err : t.err = s.err
  mem : SameMem s t
  alloc : t.alloc = s.alloc
  out : t.out = s.out

/-- `t` is `s` after the error entry for `e` (R217): the run flag, `err` and one diagnostic with the registers
and pc of `s`; registers, pc and memory stay. `ALLOC` is left to the statement that uses this. -/
structure Stops (s t : State) (e : ErrCode) : Prop where
  regs : ∀ i, t.reg i = s.reg i
  pc : t.pc = s.pc
  run : t.run = false
  err : t.err = e
  mem : SameMem s t
  out : t.out = s.out ++ [.diag e s.regs s.pc]

/-! ## What memory permits (R47, R51, R52), in the spec's numbers -/

/-- The byte address lies in an allocated node (R75, R79). -/
def Allocated (l : List Node) (b : Nat) : Prop :=
  ∃ nd ∈ l, 0xB700 + 64 * nd.start ≤ b ∧ b < 0xB700 + 64 * (nd.start + nd.len)

/-- Every byte of the range is in the heap segment and allocated (R51). -/
def HeapOk (l : List Node) (a n : Nat) : Prop :=
  0xB700 ≤ a ∧ a + n ≤ 0xD700 ∧ ∀ b, a ≤ b → b < a + n → Allocated l b

/-- A load of the range is a plain read (R50 steps 2 and 3). -/
def Readable (s : State) (a n : Nat) : Prop := a + n ≤ 0x0800 ∨ HeapOk s.alloc a n

/-- A store to the range is a plain write (R49 steps 2 and 3). -/
def Writable (s : State) (a n : Nat) : Prop := (0x0400 ≤ a ∧ a + n ≤ 0x0800) ∨ HeapOk s.alloc a n

/-- The addresses of the two read routines (R73). -/
def IsReadRoutine (a : Nat) : Prop := a = 0x0812 ∨ a = 0x0816

/-- The addresses of the nine write routines (R73). -/
def IsWriteRoutine (a : Nat) : Prop :=
  a = 0x0800 ∨ a = 0x0804 ∨ a = 0x0808 ∨ a = 0x080C ∨ a = 0x0820 ∨ a = 0x0824 ∨ a = 0x0828 ∨ a = 0x0830
    ∨ a = 0x0834

/-- `op` is an operand the routine may see from a store of `n` bytes of `v`: its low `8n` bits are those of
`v` (R65); for `n = 4` that makes it `v`. -/
def OperandOf (n : Nat) (v op : Word) : Prop := op.setWidth (8 * n) = v.setWidth (8 * n)

/-- The `need` banks from bank `g` on are in the heap and none of them is in a node (R77). -/
def FreeBanks (l : List Node) (g need : Nat) : Prop :=
  g + need ≤ 128 ∧ ∀ nd ∈ l, nd.start + nd.len ≤ g ∨ g + need ≤ nd.start

/-! ## Instructions by what they may do -/

/-- A load. -/
def isLoad : Instr → Bool
  | .lb _ _ _ | .lh _ _ _ | .lw _ _ _ | .lbu _ _ _ | .lhu _ _ _ => true
  | .add _ _ _ | .sub _ _ _ | .xor _ _ _ | .or _ _ _ | .and _ _ _ | .slt _ _ _ | .sltu _ _ _
  | .addi _ _ _ | .xori _ _ _ | .ori _ _ _ | .andi _ _ _ | .slti _ _ _ | .sltiu _ _ _ | .lui _ _
  | .sll _ _ _ | .srl _ _ _ | .sra _ _ _ | .sb _ _ _ | .sh _ _ _ | .sw _ _ _ | .beq _ _ _ | .bne _ _ _
  | .blt _ _ _ | .bltu _ _ _ | .bge _ _ _ | .bgeu _ _ _ | .jal _ _ | .jalr _ _ _ => false

/-- A store. -/
def isStore : Instr → Bool
  | .sb _ _ _ | .sh _ _ _ | .sw _ _ _ => true
  | .add _ _ _ | .sub _ _ _ | .xor _ _ _ | .or _ _ _ | .and _ _ _ | .slt _ _ _ | .sltu _ _ _
  | .addi _ _ _ | .xori _ _ _ | .ori _ _ _ | .andi _ _ _ | .slti _ _ _ | .sltiu _ _ _ | .lui _ _
  | .sll _ _ _ | .srl _ _ _ | .sra _ _ _ | .lb _ _ _ | .lh _ _ _ | .lw _ _ _ | .lbu _ _ _ | .lhu _ _ _
  | .beq _ _ _ | .bne _ _ _ | .blt _ _ _ | .bltu _ _ _ | .bge _ _ _ | .bgeu _ _ _ | .jal _ _
  | .jalr _ _ _ => false

/-- `i` is `sb`, `sh` or `sw` with these operands, storing `n` = 1, 2 or 4 bytes (R180). -/
def IsStoreOf (i : Instr) (n : Nat) (rs1 rs2 : RegIdx) (imm : Word) : Prop :=
  (i = .sb rs1 rs2 imm ∧ n = 1) ∨ (i = .sh rs1 rs2 imm ∧ n = 2) ∨ (i = .sw rs1 rs2 imm ∧ n = 4)

/-- The effective address of a store; `none` for any other instruction (R170). -/
def storeAddress (s : State) : Instr → Option Word
  | .sb rs1 _ imm => some (s.reg rs1 + imm)
  | .sh rs1 _ imm => some (s.reg rs1 + imm)
  | .sw rs1 _ imm => some (s.reg rs1 + imm)
  | .add _ _ _ | .sub _ _ _ | .xor _ _ _ | .or _ _ _ | .and _ _ _ | .slt _ _ _ | .sltu _ _ _
  | .addi _ _ _ | .xori _ _ _ | .ori _ _ _ | .andi _ _ _ | .slti _ _ _ | .sltiu _ _ _ | .lui _ _
  | .sll _ _ _ | .srl _ _ _ | .sra _ _ _ | .lb _ _ _ | .lh _ _ _ | .lw _ _ _ | .lbu _ _ _ | .lhu _ _ _
  | .beq _ _ _ | .bne _ _ _ | .blt _ _ _ | .bltu _ _ _ | .bge _ _ _ | .bgeu _ _ _ | .jal _ _
  | .jalr _ _ _ => none

/-- The table of R33: the next pc of an instruction that raises no error. -/
def nextPcOf (s : State) : Instr → Word
  | .beq rs1 rs2 imm => if s.reg rs1 = s.reg rs2 then s.pc + imm else s.pc + 4
  | .bne rs1 rs2 imm => if s.reg rs1 ≠ s.reg rs2 then s.pc + imm else s.pc + 4
  | .blt rs1 rs2 imm => if (s.reg rs1).toInt < (s.reg rs2).toInt then s.pc + imm else s.pc + 4
  | .bltu rs1 rs2 imm => if (s.reg rs1).toNat < (s.reg rs2).toNat then s.pc + imm else s.pc + 4
  | .bge rs1 rs2 imm => if (s.reg rs1).toInt ≥ (s.reg rs2).toInt then s.pc + imm else s.pc + 4
  | .bgeu rs1 rs2 imm => if (s.reg rs1).toNat ≥ (s.reg rs2).toNat then s.pc + imm else s.pc + 4
  | .jal _ imm => s.pc + imm
  | .jalr _ rs1 imm => s.reg rs1 + imm
  | .add _ _ _ | .sub _ _ _ | .xor _ _ _ | .or _ _ _ | .and _ _ _ | .slt _ _ _ | .sltu _ _ _
  | .addi _ _ _ | .xori _ _ _ | .ori _ _ _ | .andi _ _ _ | .slti _ _ _ | .sltiu _ _ _ | .lui _ _
  | .sll _ _ _ | .srl _ _ _ | .sra _ _ _ | .lb _ _ _ | .lh _ _ _ | .lw _ _ _ | .lbu _ _ _ | .lhu _ _ _
  | .sb _ _ _ | .sh _ _ _ | .sw _ _ _ => s.pc + 4

/-! ## The ends of a run and what the host sees (R35, D13, D14) -/

/-- The clean halt: the run is over and there is no error (R35, R224). -/
def CleanHalt (s : State) : Prop := s.run = false ∧ s.err = .none

/-- The error stop: the run is over with one of the three errors the hardware raises (R35, R210). -/
def ErrorStop (s : State) : Prop :=
  s.run = false ∧ (s.err = .unknownInstruction ∨ s.err = .illegalOperation ∨ s.err = .pcOutOfBounds)

/-- The diagnostics among the events (R217). -/
def Event.isDiag : Event → Bool
  | .diag _ _ _ => true
  | _ => false

/-- What a host's ERR_CODE must be: 0 for no error, a distinct negative integer for each error (R27, D14). -/
structure ErrCodeLawful (code : ErrCode → Int) : Prop where
  none : code .none = 0
  negative : ∀ e, e ≠ .none → code e < 0
  distinct : ∀ e f, code e = code f → e = f

/-- The exit code of a stopped machine under the open parameter ERR_CODE (R27, D14). -/
def exitCode (code : ErrCode → Int) (s : State) : Int := code s.err

/-- The bytes on standard output under the open parameter CONSOLE_FORMAT (R60, D13). -/
def consoleText (format : List Event → List Byte) (s : State) : List Byte := format s.out

end Sys2Proof.Machine
end

