-- ==== Sys2Proof/Certificates/Slice0/Obligations.lean ====
section
/-! DEFINITION. The statements for the provers, by the section of the spec they come from. Where a statement
rests on a choice the spec marks as its own (a decision D<n>, or an encoding value imported from RV32I) its
docstring says so; such a statement's basis is 'derived'. -/

open Sys2Proof Sys2Proof.Machine

/-! ## Encoding and decoding (30_encoding.md) -/

/-- Decoding the words written out bit by bit in the spec's worked decodes (section 7, rule R116) gives the
operations and operands shown there, and the three unknown words are refused. The encodings were
taken by the spec from RV32I (D2; log entry 1). -/
def Obligations.WorkedDecodes : Prop :=
  decode 0x002081B3 = .ok (.add 3 1 2) ∧ decodeRecord 0x002081B3 = .ok (.r 0x33 3 0 1 2 0)
  ∧ decode 0x40C5D533 = .ok (.sra 10 11 12) ∧ decodeRecord 0x40C5D533 = .ok (.r 0x33 10 5 11 12 0x20)
  ∧ decode 0xFFF08093 = .ok (.addi 1 1 0xFFFFFFFF) ∧ decodeRecord 0xFFF08093 = .ok (.i 0x13 1 0 1 0xFFFFFFFF)
  ∧ decode 0x00812303 = .ok (.lw 6 2 8) ∧ decodeRecord 0x00812303 = .ok (.i 0x03 6 2 2 8)
  ∧ decode 0x80022623 = .ok (.sw 4 0 0xFFFFF80C) ∧ decodeRecord 0x80022623 = .ok (.s 0x23 2 4 0 0xFFFFF80C)
  ∧ decode 0x00208463 = .ok (.beq 1 2 8) ∧ decodeRecord 0x00208463 = .ok (.sb 0x63 0 1 2 8)
  ∧ decode 0xFE209EE3 = .ok (.bne 1 2 0xFFFFFFFC) ∧ decodeRecord 0xFE209EE3 = .ok (.sb 0x63 1 1 2 0xFFFFFFFC)
  ∧ decode 0x123452B7 = .ok (.lui 5 0x12345000) ∧ decodeRecord 0x123452B7 = .ok (.u 0x37 5 0x12345000)
  ∧ decode 0xFF9FF06F = .ok (.jal 0 0xFFFFFFF8) ∧ decodeRecord 0xFF9FF06F = .ok (.uj 0x6F 0 0xFFFFFFF8)
  ∧ decode 0x00008067 = .ok (.jalr 0 1 0) ∧ decodeRecord 0x00008067 = .ok (.i 0x67 0 0 1 0)
  ∧ decode 0x00001013 = .error .unknownInstruction ∧ decode 0x02000033 = .error .unknownInstruction
  ∧ decode 0x00000073 = .error .unknownInstruction

/-- `sext_N` (R95, R10): the low `N` bits pass unchanged, bit `N - 1` fills the bits above, the result's signed
reading is that of the `N`-bit value, a correct circuit is the one the rule gives, and the worked values hold. -/
def Obligations.SignExtensionRule : Prop :=
  (∀ (n : Nat) (v : Word), 1 ≤ n → n ≤ 32 →
    (∀ i, i < n → (sext n v).getLsbD i = v.getLsbD i)
    ∧ (∀ i, n ≤ i → i < 32 → (sext n v).getLsbD i = v.getLsbD (n - 1))
    ∧ (sext n v).toInt = (v.setWidth n).toInt
    ∧ (v.toNat < 2 ^ n → sext n v = (v ^^^ BitVec.ofNat 32 (2 ^ (n - 1))) - BitVec.ofNat 32 (2 ^ (n - 1))))
  ∧ sext 12 0xFFF = 0xFFFFFFFF ∧ sext 12 0x7FF = 0x7FF ∧ sext 12 0x800 = 0xFFFFF800
  ∧ sext 13 0x1000 = 0xFFFFF000 ∧ sext 21 0x100000 = 0xFFF00000 ∧ ∀ v, sext 32 v = v

/-- What the decoder answers for every word, row by row of the table of R110 (mask and match) with each operand
read from the bits R91 and R97 to R101 give it: `decode w` is the row's operation with these operands exactly
when the word matches the row and the operands are those fields. The immediates are said through their signed
readings. The positions and values are the spec's import from RV32I (D2; log entry 1). -/
def Obligations.DecodeFollowsTable : Prop :=
  ∀ (w : Word),
  (∀ (rd rs1 rs2 : RegIdx),
    let fields := rd = w.extractLsb' 7 5 ∧ rs1 = w.extractLsb' 15 5 ∧ rs2 = w.extractLsb' 20 5
    (decode w = .ok (.add rd rs1 rs2) ↔ w &&& 0xFE00707F = 0x00000033 ∧ fields)
    ∧ (decode w = .ok (.sub rd rs1 rs2) ↔ w &&& 0xFE00707F = 0x40000033 ∧ fields)
    ∧ (decode w = .ok (.xor rd rs1 rs2) ↔ w &&& 0xFE00707F = 0x00004033 ∧ fields)
    ∧ (decode w = .ok (.or rd rs1 rs2) ↔ w &&& 0xFE00707F = 0x00006033 ∧ fields)
    ∧ (decode w = .ok (.and rd rs1 rs2) ↔ w &&& 0xFE00707F = 0x00007033 ∧ fields)
    ∧ (decode w = .ok (.slt rd rs1 rs2) ↔ w &&& 0xFE00707F = 0x00002033 ∧ fields)
    ∧ (decode w = .ok (.sltu rd rs1 rs2) ↔ w &&& 0xFE00707F = 0x00003033 ∧ fields)
    ∧ (decode w = .ok (.sll rd rs1 rs2) ↔ w &&& 0xFE00707F = 0x00001033 ∧ fields)
    ∧ (decode w = .ok (.srl rd rs1 rs2) ↔ w &&& 0xFE00707F = 0x00005033 ∧ fields)
    ∧ (decode w = .ok (.sra rd rs1 rs2) ↔ w &&& 0xFE00707F = 0x40005033 ∧ fields))
  ∧ (∀ (rd rs1 : RegIdx) (imm : Word),
    let fields := rd = w.extractLsb' 7 5 ∧ rs1 = w.extractLsb' 15 5 ∧ imm.toInt = (w.extractLsb' 20 12).toInt
    (decode w = .ok (.addi rd rs1 imm) ↔ w &&& 0x0000707F = 0x00000013 ∧ fields)
    ∧ (decode w = .ok (.xori rd rs1 imm) ↔ w &&& 0x0000707F = 0x00004013 ∧ fields)
    ∧ (decode w = .ok (.ori rd rs1 imm) ↔ w &&& 0x0000707F = 0x00006013 ∧ fields)
    ∧ (decode w = .ok (.andi rd rs1 imm) ↔ w &&& 0x0000707F = 0x00007013 ∧ fields)
    ∧ (decode w = .ok (.slti rd rs1 imm) ↔ w &&& 0x0000707F = 0x00002013 ∧ fields)
    ∧ (decode w = .ok (.sltiu rd rs1 imm) ↔ w &&& 0x0000707F = 0x00003013 ∧ fields)
    ∧ (decode w = .ok (.lb rd rs1 imm) ↔ w &&& 0x0000707F = 0x00000003 ∧ fields)
    ∧ (decode w = .ok (.lh rd rs1 imm) ↔ w &&& 0x0000707F = 0x00001003 ∧ fields)
    ∧ (decode w = .ok (.lw rd rs1 imm) ↔ w &&& 0x0000707F = 0x00002003 ∧ fields)
    ∧ (decode w = .ok (.lbu rd rs1 imm) ↔ w &&& 0x0000707F = 0x00004003 ∧ fields)
    ∧ (decode w = .ok (.lhu rd rs1 imm) ↔ w &&& 0x0000707F = 0x00005003 ∧ fields)
    ∧ (decode w = .ok (.jalr rd rs1 imm) ↔ w &&& 0x0000707F = 0x00000067 ∧ fields))
  ∧ (∀ (rs1 rs2 : RegIdx) (imm : Word),
    let fields := rs1 = w.extractLsb' 15 5 ∧ rs2 = w.extractLsb' 20 5
      ∧ imm.toInt = (w.extractLsb' 25 7 ++ w.extractLsb' 7 5).toInt
    (decode w = .ok (.sb rs1 rs2 imm) ↔ w &&& 0x0000707F = 0x00000023 ∧ fields)
    ∧ (decode w = .ok (.sh rs1 rs2 imm) ↔ w &&& 0x0000707F = 0x00001023 ∧ fields)
    ∧ (decode w = .ok (.sw rs1 rs2 imm) ↔ w &&& 0x0000707F = 0x00002023 ∧ fields))
  ∧ (∀ (rs1 rs2 : RegIdx) (imm : Word),
    let fields := rs1 = w.extractLsb' 15 5 ∧ rs2 = w.extractLsb' 20 5
      ∧ imm.toInt = 2 * (w.extractLsb' 31 1 ++ w.extractLsb' 7 1 ++ w.extractLsb' 25 6 ++ w.extractLsb' 8 4).toInt
    (decode w = .ok (.beq rs1 rs2 imm) ↔ w &&& 0x0000707F = 0x00000063 ∧ fields)
    ∧ (decode w = .ok (.bne rs1 rs2 imm) ↔ w &&& 0x0000707F = 0x00001063 ∧ fields)
    ∧ (decode w = .ok (.blt rs1 rs2 imm) ↔ w &&& 0x0000707F = 0x00004063 ∧ fields)
    ∧ (decode w = .ok (.bltu rs1 rs2 imm) ↔ w &&& 0x0000707F = 0x00006063 ∧ fields)
    ∧ (decode w = .ok (.bge rs1 rs2 imm) ↔ w &&& 0x0000707F = 0x00005063 ∧ fields)
    ∧ (decode w = .ok (.bgeu rs1 rs2 imm) ↔ w &&& 0x0000707F = 0x00007063 ∧ fields))
  ∧ (∀ (rd : RegIdx) (imm : Word),
    (decode w = .ok (.lui rd imm) ↔
      w &&& 0x0000007F = 0x00000037 ∧ rd = w.extractLsb' 7 5 ∧ imm = w &&& 0xFFFFF000)
    ∧ (decode w = .ok (.jal rd imm) ↔
      w &&& 0x0000007F = 0x0000006F ∧ rd = w.extractLsb' 7 5
      ∧ imm.toInt = 2 * (w.extractLsb' 31 1 ++ w.extractLsb' 12 8 ++ w.extractLsb' 20 1 ++ w.extractLsb' 21 10).toInt))

/-- The words that are unknown instructions are exactly those of the list (a) to (g) of R112. The list is the
spec's derivation from its table (log entry 1). -/
def Obligations.UnknownWordsExactly : Prop :=
  ∀ w : Word, decode w = .error .unknownInstruction ↔
    let op := w.extractLsb' 0 7
    let f3 := w.extractLsb' 12 3
    let f7 := w.extractLsb' 25 7
    (op ∉ [0x03, 0x13, 0x23, 0x33, 0x37, 0x63, 0x67, 0x6F])
    ∨ (op = 0x33 ∧ (f3, f7) ∉ [(0, 0x00), (0, 0x20), (1, 0x00), (2, 0x00), (3, 0x00), (4, 0x00), (5, 0x00),
        (5, 0x20), (6, 0x00), (7, 0x00)])
    ∨ (op = 0x13 ∧ f3 ∈ [1, 5])
    ∨ (op = 0x03 ∧ f3 ∈ [3, 6, 7])
    ∨ (op = 0x23 ∧ f3 ∈ [3, 4, 5, 6, 7])
    ∨ (op = 0x63 ∧ f3 ∈ [2, 3])
    ∨ (op = 0x67 ∧ f3 ≠ 0)

/-- The decoder has 33 pairs, no fixed bit lies outside its mask (R108), and no word matches two of them
(R107, derived there from the table). -/
def Obligations.NoWordMatchesTwoRows : Prop :=
  table.length = 33 ∧ (∀ r ∈ table, r.idBits &&& ~~~ r.mask = 0)
  ∧ table.Pairwise fun p q => ∀ w, ¬ (p.hits w = true ∧ q.hits w = true)

/-- Decoding the encoding of any well-formed instruction gives it back, with every operand (R115). -/
def Obligations.DecodeEncodeRoundTrip : Prop :=
  ∀ i : Instr, i.wellFormed = true → decode (encode i) = .ok i

/-- Every known word is the encoding of what it decodes to, which is well formed (R115, the converse). -/
def Obligations.EncodeDecodeRoundTrip : Prop :=
  ∀ (w : Word) (i : Instr), decode w = .ok i → i.wellFormed = true ∧ encode i = w

/-- The bytes of an encoded instruction, low address first, decode to it whatever bytes follow, and fewer than
four bytes never decode (R44, R90; little-endian is the spec's decision D1, log entry 10). -/
def Obligations.DecodeBytesOfEncoding : Prop :=
  (∀ (i : Instr) (rest : List Byte), i.wellFormed = true →
    decodeBytes (encodeBytes i ++ rest) = .ok (i, rest))
  ∧ ∀ bs : List Byte, bs.length < 4 → decodeBytes bs = .error .tooShort

/-! ## Registers (10_state.md) -/

/-- Reading a register after a write gives the value written, for index 0 always 0, and every other register is
unchanged (R11, R20, R21); a write to index 0 is discarded (R22). That the discarded write leaves the whole state as
it was, the cell held for x[0] too, is the model's choice (log entry 21). -/
def Obligations.RegisterReadAfterWrite : Prop :=
  ∀ (s : State) (i j : RegIdx) (v : Word),
    s.reg 0 = 0 ∧ (s.setReg i v).reg j = (if j = i ∧ i ≠ 0 then v else s.reg j)
    ∧ s.setReg 0 v = s ∧ (s.setReg i v).pc = s.pc ∧ (s.setReg i v).mem = s.mem
    ∧ (s.setReg i v).run = s.run ∧ (s.setReg i v).err = s.err
    ∧ (s.setReg i v).alloc = s.alloc ∧ (s.setReg i v).out = s.out

/-- At the end of every cycle that no unknown word and no illegal access cut short, the storage of x[0] is 0,
whatever the instruction did: it may name register 0 as its destination and the value is discarded (R22, R30 step 5). -/
def Obligations.X0ZeroAfterCycle : Prop :=
  ∀ s t : State, Running s → step s = .next t → t.err = .none ∨ t.err = .pcOutOfBounds →
    t.x[0] = 0 ∧ t.reg 0 = 0

/-! ## Arithmetic, logic, comparison, lui (40_arith_logic.md) -/

/-- `add`, `sub` and `addi` complete in every state with the 32-bit sum or difference in `x[rd]` (R141, R142,
R148), and change nothing else but the pc. -/
def Obligations.AddSubResults : Prop :=
  ∀ (s : State) (rd rs1 rs2 : RegIdx) (imm : Word),
    (∃ t, exec (.add rd rs1 rs2) s = .next t ∧ WritesReg s t rd (s.reg rs1 + s.reg rs2) (s.pc + 4))
    ∧ (∃ t, exec (.sub rd rs1 rs2) s = .next t ∧ WritesReg s t rd (s.reg rs1 - s.reg rs2) (s.pc + 4))
    ∧ (∃ t, exec (.addi rd rs1 imm) s = .next t ∧ WritesReg s t rd (s.reg rs1 + imm) (s.pc + 4))

/-- `xor`, `or`, `and`, `xori`, `ori`, `andi` complete in every state with the bitwise result in `x[rd]` (R143 to
R145, R149 to R151), and change nothing else but the pc. -/
def Obligations.LogicResults : Prop :=
  ∀ (s : State) (rd rs1 rs2 : RegIdx) (imm : Word),
    (∃ t, exec (.xor rd rs1 rs2) s = .next t ∧ WritesReg s t rd (s.reg rs1 ^^^ s.reg rs2) (s.pc + 4))
    ∧ (∃ t, exec (.or rd rs1 rs2) s = .next t ∧ WritesReg s t rd (s.reg rs1 ||| s.reg rs2) (s.pc + 4))
    ∧ (∃ t, exec (.and rd rs1 rs2) s = .next t ∧ WritesReg s t rd (s.reg rs1 &&& s.reg rs2) (s.pc + 4))
    ∧ (∃ t, exec (.xori rd rs1 imm) s = .next t ∧ WritesReg s t rd (s.reg rs1 ^^^ imm) (s.pc + 4))
    ∧ (∃ t, exec (.ori rd rs1 imm) s = .next t ∧ WritesReg s t rd (s.reg rs1 ||| imm) (s.pc + 4))
    ∧ (∃ t, exec (.andi rd rs1 imm) s = .next t ∧ WritesReg s t rd (s.reg rs1 &&& imm) (s.pc + 4))

/-- `slt`, `sltu`, `slti`, `sltiu` complete in every state with 1 or 0 in `x[rd]`, by the signed or the unsigned
readings (R146, R147, R152, R153), and change nothing else but the pc. -/
def Obligations.CompareResults : Prop :=
  ∀ (s : State) (rd rs1 rs2 : RegIdx) (imm : Word),
    (∃ t, exec (.slt rd rs1 rs2) s = .next t
      ∧ WritesReg s t rd (if (s.reg rs1).toInt < (s.reg rs2).toInt then 1 else 0) (s.pc + 4))
    ∧ (∃ t, exec (.sltu rd rs1 rs2) s = .next t
      ∧ WritesReg s t rd (if (s.reg rs1).toNat < (s.reg rs2).toNat then 1 else 0) (s.pc + 4))
    ∧ (∃ t, exec (.slti rd rs1 imm) s = .next t
      ∧ WritesReg s t rd (if (s.reg rs1).toInt < imm.toInt then 1 else 0) (s.pc + 4))
    ∧ (∃ t, exec (.sltiu rd rs1 imm) s = .next t
      ∧ WritesReg s t rd (if (s.reg rs1).toNat < imm.toNat then 1 else 0) (s.pc + 4))

/-- `lui` completes in every state with the decoded immediate in `x[rd]`, which has its low 12 bits 0 whenever a
word decodes to the instruction (R100, R154), and changes nothing else but the pc. -/
def Obligations.LuiResult : Prop :=
  ∀ (s : State) (rd : RegIdx) (imm : Word),
    (∃ t, exec (.lui rd imm) s = .next t ∧ WritesReg s t rd imm (s.pc + 4))
    ∧ ∀ w, decode w = .ok (.lui rd imm) → imm.toNat % 4096 = 0 ∧ imm.extractLsb' 12 20 = w.extractLsb' 12 20

/-! ## Shifts (41_shifts.md) -/

/-- `sll`, `srl`, `sra` complete in every state, write `x[rd]` and the pc and nothing else, and the value is that
of the table of R164 by the signed amount `n = s(x[rs2])`: a negative amount gives 0; `sll` and `srl` give 0 for
32 and more, else the product with and the quotient by `2^n`; `sra` gives the floor of `s(x[rs1]) / 2^(n mod 32)`
(R160 to R164). The 0 at the amount 32 and the sign fill of `sra` are the spec's resolutions C4 and C3 (log entry 22). -/
def Obligations.ShiftResults : Prop :=
  ∀ (s : State) (rd rs1 rs2 : RegIdx),
    let n := (s.reg rs2).toInt
    let v := s.reg rs1
    (∃ t r, exec (.sll rd rs1 rs2) s = .next t ∧ WritesReg s t rd r (s.pc + 4)
      ∧ (n < 0 ∨ 32 ≤ n → r = 0) ∧ (0 ≤ n → n < 32 → r.toNat = v.toNat * 2 ^ n.toNat % 2 ^ 32))
    ∧ (∃ t r, exec (.srl rd rs1 rs2) s = .next t ∧ WritesReg s t rd r (s.pc + 4)
      ∧ (n < 0 ∨ 32 ≤ n → r = 0) ∧ (0 ≤ n → n < 32 → r.toNat = v.toNat / 2 ^ n.toNat))
    ∧ (∃ t r, exec (.sra rd rs1 rs2) s = .next t ∧ WritesReg s t rd r (s.pc + 4)
      ∧ (n < 0 → r = 0) ∧ (0 ≤ n → r.toInt = v.toInt / 2 ^ (n.toNat % 32)))

/-! ## Loads (42_loads_stores.md, 20_memory.md) -/

/-- A load of a readable range completes with the bytes there, low address least significant, extended as the
load says (R171 to R175, R50), at any alignment, and changes only `x[rd]` and the pc. Little-endian order (D1),
no alignment (D7) and ranges that do not wrap (D9) are the spec's decisions (log entries 10, 15, 17). -/
def Obligations.LoadsOfReadableRanges : Prop :=
  ∀ (s : State) (rd rs1 : RegIdx) (imm : Word),
    let a := (s.reg rs1 + imm).toNat
    let b := fun k => s.mem.byteAt (a + k)
    (Readable s a 1 →
      (∃ t, exec (.lb rd rs1 imm) s = .next t ∧ WritesReg s t rd ((b 0).signExtend 32) (s.pc + 4))
      ∧ (∃ t, exec (.lbu rd rs1 imm) s = .next t ∧ WritesReg s t rd ((b 0).setWidth 32) (s.pc + 4)))
    ∧ (Readable s a 2 →
      (∃ t, exec (.lh rd rs1 imm) s = .next t ∧ WritesReg s t rd ((b 1 ++ b 0).signExtend 32) (s.pc + 4))
      ∧ (∃ t, exec (.lhu rd rs1 imm) s = .next t ∧ WritesReg s t rd ((b 1 ++ b 0).setWidth 32) (s.pc + 4)))
    ∧ (Readable s a 4 →
      ∃ t, exec (.lw rd rs1 imm) s = .next t ∧ WritesReg s t rd (b 3 ++ b 2 ++ b 1 ++ b 0) (s.pc + 4))

/-- A load from a read routine's address completes with the low bytes of the host's value for this console read,
extended as the load says, and records the read in `OUT` (R50 step 1, R66, R67). The value is free (log entry 5);
that a narrow load keeps the low bytes is the spec's decision D11 (log entry 18). -/
def Obligations.LoadsFromConsole : Prop :=
  ∀ (s : State) (rd rs1 : RegIdx) (imm : Word) (c : Word) (e : Event),
    (s.reg rs1 + imm = 0x0812 ∧ c = Config.consoleChar (readCount s.out) ∧ e = .inChar c
      ∨ s.reg rs1 + imm = 0x0816 ∧ c = Config.consoleInt (readCount s.out) ∧ e = .inInt c) →
    (∃ t, exec (.lb rd rs1 imm) s = .next t ∧ ReadsConsole s t rd ((c.setWidth 8).signExtend 32) e)
    ∧ (∃ t, exec (.lbu rd rs1 imm) s = .next t ∧ ReadsConsole s t rd ((c.setWidth 8).setWidth 32) e)
    ∧ (∃ t, exec (.lh rd rs1 imm) s = .next t ∧ ReadsConsole s t rd ((c.setWidth 16).signExtend 32) e)
    ∧ (∃ t, exec (.lhu rd rs1 imm) s = .next t ∧ ReadsConsole s t rd ((c.setWidth 16).setWidth 32) e)
    ∧ (∃ t, exec (.lw rd rs1 imm) s = .next t ∧ ReadsConsole s t rd c e)

/-- A load whose range is neither readable nor starts at a read routine raises `IllegalOperation`, and changes
nothing but the run flag, `err` and the diagnostic, also when `rd` is 0 (R50 step 4, R179). That nothing else
changes is the spec's decision D4 (log entry 12). -/
def Obligations.LoadsElsewhereRaise : Prop :=
  ∀ (s : State) (rd rs1 : RegIdx) (imm : Word) (i : Instr) (n : Nat),
    ((i = .lb rd rs1 imm ∨ i = .lbu rd rs1 imm) ∧ n = 1
      ∨ (i = .lh rd rs1 imm ∨ i = .lhu rd rs1 imm) ∧ n = 2 ∨ i = .lw rd rs1 imm ∧ n = 4) →
    let a := (s.reg rs1 + imm).toNat
    ¬ Readable s a n → ¬ IsReadRoutine a →
    ∃ t, exec i s = .next t ∧ Stops s t .illegalOperation ∧ t.alloc = s.alloc

/-! ## Stores and the virtual routines (42_loads_stores.md, 20_memory.md) -/

/-- `sb`, `sh` and `sw` to a writable range complete: the low bytes of `x[rs2]` are stored at the effective
address `x[rs1] + imm`, low address least significant, at any alignment; every other byte, every register and the
rest of the state are unchanged (R176 to R178, R49). The memory has its canonical form, an invariant
(`StepKeepsInvariant`). Byte order and alignment are the spec's decisions D1, D7 (log entries 10 and 15). -/
def Obligations.StoresToWritableRanges : Prop :=
  ∀ (s : State) (rs1 rs2 : RegIdx) (imm : Word) (i : Instr) (n : Nat), s.mem.wf → IsStoreOf i n rs1 rs2 imm →
    Writable s (s.reg rs1 + imm).toNat n →
    ∃ t, exec i s = .next t ∧ Stores s t (s.reg rs1 + imm).toNat n (s.reg rs2)

/-- A store whose range is neither writable nor starts at a write routine raises `IllegalOperation`, and changes
nothing but the run flag, `err` and the diagnostic: no byte is stored (R49 steps 3 and 4, R179). That nothing else
changes is the spec's decision D4 (log entry 12). -/
def Obligations.StoresElsewhereRaise : Prop :=
  ∀ (s : State) (rs1 rs2 : RegIdx) (imm : Word) (i : Instr) (n : Nat), IsStoreOf i n rs1 rs2 imm →
    ¬ Writable s (s.reg rs1 + imm).toNat n → ¬ IsWriteRoutine (s.reg rs1 + imm).toNat →
    ∃ t, exec i s = .next t ∧ Stops s t .illegalOperation ∧ t.alloc = s.alloc

/-- A store of any width to VR_CHAR_OUT, VR_INT_OUT, VR_HEX_OUT completes and appends its event: the low 8 bits of
`x[rs2]`, or an operand whose low bytes are those of `x[rs2]` and which for `sw` is `x[rs2]` (R61, R62, R63); no
byte is stored. The operand's upper bits under `sb` and `sh` are free (R65, log entry 4). -/
def Obligations.OutputRoutines : Prop :=
  ∀ (s : State) (rs1 rs2 : RegIdx) (imm : Word) (i : Instr) (n : Nat), IsStoreOf i n rs1 rs2 imm →
    (s.reg rs1 + imm = 0x0800 → ∃ t, exec i s = .next t ∧ Emits s t (.outChar ((s.reg rs2).setWidth 8)))
    ∧ (s.reg rs1 + imm = 0x0804 →
      ∃ t op, exec i s = .next t ∧ OperandOf n (s.reg rs2) op ∧ Emits s t (.outInt op))
    ∧ (s.reg rs1 + imm = 0x0808 →
      ∃ t op, exec i s = .next t ∧ OperandOf n (s.reg rs2) op ∧ Emits s t (.outHex op))

/-- A store of any width and value to VR_HALT completes: the run flag is cleared, nothing is printed and nothing
stored; the cycle that ran it finishes with x[0] cleared and the pc check, and only then is the run over, with `err`
still `None` unless that check fails (R64). That the check runs in the cycle that halted, so that a halt at pc 1020 to
1023 ends in `PcOutOfBounds`, is the spec's decision D5 (log entry 13). -/
def Obligations.HaltRoutine : Prop :=
  ∀ (s : State) (rs1 rs2 : RegIdx) (imm : Word) (i : Instr) (n : Nat), IsStoreOf i n rs1 rs2 imm →
    s.reg rs1 + imm = 0x080C →
    (∃ t, exec i s = .next t ∧ Halts s t)
    ∧ (Running s → decode s.fetch = .ok i → ∃ u, step s = .next u ∧ u.run = false ∧ u.pc = s.pc + 4 ∧ u.x[0] = 0
        ∧ (s.pc.toNat + 4 < 1024 → u.err = .none ∧ u.out = s.out)
        ∧ (1024 ≤ s.pc.toNat + 4 → u.err = .pcOutOfBounds))

/-- A store of any width and value to VR_DUMP_PC or VR_DUMP_REGS completes and appends the address of the store
itself, or the register values at its start (R68, R69). -/
def Obligations.DumpRoutines : Prop :=
  ∀ (s : State) (rs1 rs2 : RegIdx) (imm : Word) (i : Instr) (n : Nat), IsStoreOf i n rs1 rs2 imm →
    (s.reg rs1 + imm = 0x0820 → ∃ t, exec i s = .next t ∧ Emits s t (.dumpPc s.pc))
    ∧ (s.reg rs1 + imm = 0x0824 →
      ∃ t r, exec i s = .next t ∧ (∀ k : Fin 32, r[k] = s.reg (BitVec.ofFin k)) ∧ Emits s t (.dumpRegs r))

/-- A store to VR_DUMP_WORD appends the address and the little-endian word there when its four bytes lie in the
instruction and data segments; for every other address the spec says that a model should refuse it (R70), and the
model does so by name (D16; log entry 7). The operand's upper bits under `sb` and `sh` are free (log entry 4). -/
def Obligations.DumpWordRoutine : Prop :=
  ∀ (s : State) (rs1 rs2 : RegIdx) (imm : Word) (i : Instr) (n : Nat), IsStoreOf i n rs1 rs2 imm →
    s.reg rs1 + imm = 0x0828 →
    ∃ op, OperandOf n (s.reg rs2) op
      ∧ (op.toNat + 4 ≤ 0x0800 → ∃ t, exec i s = .next t
          ∧ Emits s t (.dumpWord op (s.mem.byteAt (op.toNat + 3) ++ s.mem.byteAt (op.toNat + 2)
              ++ s.mem.byteAt (op.toNat + 1) ++ s.mem.byteAt op.toNat)))
      ∧ (0x0800 < op.toNat + 4 → exec i s = .refused (.dumpWordOutsideImage op))

/-- A store to VR_ALLOC completes with `Allocate(s(op))` done on the allocation list and its result in x28, read
after the operand (R71); a failed allocation is no error, and no byte is stored. The operand's upper bits under
`sb` and `sh` are free (R65, log entry 4). -/
def Obligations.AllocRoutine : Prop :=
  ∀ (s : State) (rs1 rs2 : RegIdx) (imm : Word) (i : Instr) (n : Nat), IsStoreOf i n rs1 rs2 imm →
    s.reg rs1 + imm = 0x0830 →
    ∃ t op, exec i s = .next t ∧ OperandOf n (s.reg rs2) op
      ∧ HeapCall s t (allocate op.toInt s.alloc).2 (allocate op.toInt s.alloc).1

/-- A store to VR_FREE does `Free(op)` (R72, R78): the list it gives with every register kept, x28 among them, and
no byte changed; or `IllegalOperation`, with the list unchanged or without the node at the truncated index. Which of
the two is free (D19), and that the index is rounded toward zero is the model's choice (log entry 6); that nothing
else changes is the spec's decision D4 (log entry 12). The operand's upper bits under `sb` and `sh` are free (D10, log
entry 4). -/
def Obligations.FreeRoutine : Prop :=
  ∀ (s : State) (rs1 rs2 : RegIdx) (imm : Word) (i : Instr) (n : Nat), IsStoreOf i n rs1 rs2 imm →
    s.reg rs1 + imm = 0x0834 →
    ∃ t op, exec i s = .next t ∧ OperandOf n (s.reg rs2) op
      ∧ (∀ l, free? op s.alloc = some l → HeapCall s t l (s.reg 28))
      ∧ (free? op s.alloc = none → Stops s t .illegalOperation
          ∧ (t.alloc = s.alloc
            ∨ ∃ nd ∈ s.alloc, (nd.start : Int) = Int.tdiv (op.toNat - 0xB700) 64 ∧ t.alloc = s.alloc.erase nd))

/-! ## Branches and jumps (43_control_transfer.md) -/

/-- The six branches complete in every state: the pc becomes `pc + imm` when the condition on the two registers
holds and `pc + 4` when not, and nothing else changes (R191 to R196). -/
def Obligations.BranchResults : Prop :=
  ∀ (s : State) (rs1 rs2 : RegIdx) (imm : Word),
    let x := s.reg rs1
    let y := s.reg rs2
    (∃ t, exec (.beq rs1 rs2 imm) s = .next t ∧ MovesPc s t (if x = y then s.pc + imm else s.pc + 4))
    ∧ (∃ t, exec (.bne rs1 rs2 imm) s = .next t ∧ MovesPc s t (if x ≠ y then s.pc + imm else s.pc + 4))
    ∧ (∃ t, exec (.blt rs1 rs2 imm) s = .next t
      ∧ MovesPc s t (if x.toInt < y.toInt then s.pc + imm else s.pc + 4))
    ∧ (∃ t, exec (.bltu rs1 rs2 imm) s = .next t
      ∧ MovesPc s t (if x.toNat < y.toNat then s.pc + imm else s.pc + 4))
    ∧ (∃ t, exec (.bge rs1 rs2 imm) s = .next t
      ∧ MovesPc s t (if x.toInt ≥ y.toInt then s.pc + imm else s.pc + 4))
    ∧ (∃ t, exec (.bgeu rs1 rs2 imm) s = .next t
      ∧ MovesPc s t (if x.toNat ≥ y.toNat then s.pc + imm else s.pc + 4))

/-- `jal` and `jalr` complete in every state: the link `pc + 4` goes to `x[rd]`, the pc becomes `pc + imm`, or
`x[rs1] + imm` with no bit cleared, and nothing else changes (R197, R198). That `jalr` with `rd = rs1` uses the
old register is the spec's decision D3 (log entry 11). -/
def Obligations.JumpResults : Prop :=
  ∀ (s : State) (rd rs1 : RegIdx) (imm : Word),
    (∃ t, exec (.jal rd imm) s = .next t ∧ WritesReg s t rd (s.pc + 4) (s.pc + imm))
    ∧ (∃ t, exec (.jalr rd rs1 imm) s = .next t ∧ WritesReg s t rd (s.pc + 4) (s.reg rs1 + imm))

/-- The next pc of every instruction that raises no error is that of the table of R33, and an instruction that
raises one, or a word that is no instruction, leaves the pc at its own address. -/
def Obligations.NextPcTable : Prop :=
  (∀ (i : Instr) (s t : State), s.err = .none → exec i s = .next t →
    t.pc = if t.err = .none then nextPcOf s i else s.pc)
  ∧ ∀ s t : State, Running s → decode s.fetch = .error .unknownInstruction → step s = .next t → t.pc = s.pc

/-! ## The cycle and the errors (10_state.md, 60_exceptions.md) -/

/-- In a state that starts a cycle, when the four bytes at the pc, low address least significant, decode to `i`, a
step is `exec i` followed by the end of the cycle, which leaves an error stop alone, and else clears x[0] and
checks the pc (R30, R46). Fetch past the dispatcher, the byte order and the check after a halt are the spec's
decisions D8, D1, D5 (log entries 16, 10, 13). -/
def Obligations.StepRunsDecoded : Prop :=
  (∀ (s : State) (i : Instr), Running s →
    decode (s.mem.byteAt (s.pc.toNat + 3) ++ s.mem.byteAt (s.pc.toNat + 2) ++ s.mem.byteAt (s.pc.toNat + 1)
      ++ s.mem.byteAt s.pc.toNat) = .ok i →
    step s = match exec i s with
      | .next t => .next (endCycle t)
      | .fault f => .fault f
      | .refused r => .refused r)
  ∧ ∀ t : State, (t.err ≠ .none → endCycle t = t)
    ∧ (t.err = .none → t.pc.toNat < 1024 → endCycle t = { t with x := t.x.set 0 0 })
    ∧ (t.err = .none → 1024 ≤ t.pc.toNat →
        endCycle t = State.raise { t with x := t.x.set 0 0 } .pcOutOfBounds)

/-- A word at the pc that matches no operation raises `UnknownInstruction` in the step that fetches it: the pc is
the address of the word, registers, memory and `ALLOC` are as they were, and one diagnostic is appended (R211). -/
def Obligations.UnknownInstructionStops : Prop :=
  ∀ s : State, Running s → decode s.fetch = .error .unknownInstruction →
    ∃ t, step s = .next t ∧ Stops s t .unknownInstruction ∧ t.alloc = s.alloc

/-- When an instruction raised nothing and left the pc at 1024 or more, the step ends in `PcOutOfBounds` with all
the instruction did standing, the pc at the out-of-bounds value and one diagnostic (R213). -/
def Obligations.PcOutOfBoundsStops : Prop :=
  ∀ (s t : State) (i : Instr), Running s → decode s.fetch = .ok i → exec i s = .next t → t.err = .none →
    1024 ≤ t.pc.toNat → ∃ u, step s = .next u ∧ Stops t u .pcOutOfBounds ∧ u.alloc = t.alloc

/-- When an instruction raised nothing and left the pc in bounds, the step ends in the state the instruction left,
running or cleanly halted, with no event added (R30, R224). -/
def Obligations.PcInBoundsContinues : Prop :=
  ∀ (s t : State) (i : Instr), Running s → decode s.fetch = .ok i → exec i s = .next t → t.err = .none →
    t.pc.toNat < 1024 → ∃ u, step s = .next u ∧ MovesPc t u t.pc ∧ u.x[0] = 0

/-- When the run is over no cycle runs: no fetch, no effect, no event (R35). The host's step must answer something all
the same, and that it answers next with the state as it was is the model's choice (log entry 9). -/
def Obligations.StoppedMachineStays : Prop :=
  ∀ s : State, s.run = false → step s = .next s

/-- An instruction raises no error but `IllegalOperation`, and only a load or a store raises that (R212). -/
def Obligations.OnlyLoadsAndStoresRaise : Prop :=
  ∀ (i : Instr) (s t : State), s.err = .none → exec i s = .next t → t.err ≠ .none →
    t.err = .illegalOperation ∧ (isLoad i = true ∨ isStore i = true)

/-- Errors are precise: an instruction that raises leaves registers, pc and memory as they were; only the run
flag, `err`, one diagnostic and, for a store to VR_FREE, `ALLOC` differ (R218; the spec's decision D4, log entry 12). -/
def Obligations.ErrorsArePrecise : Prop :=
  ∀ (i : Instr) (s t : State), s.err = .none → exec i s = .next t → t.err ≠ .none →
    Stops s t .illegalOperation
    ∧ (t.alloc = s.alloc ∨ storeAddress s i = some 0x0834 ∧ ∃ nd ∈ s.alloc, t.alloc = s.alloc.erase nd)

/-- `OUT` only grows, the run flag is never set again, and `err` changes only from `None`, in the step that clears
the run flag (R26, R27, R31). -/
def Obligations.StatusIsMonotone : Prop :=
  ∀ s t : State, step s = .next t →
    (∃ es, t.out = s.out ++ es) ∧ (t.run = true → s.run = true)
    ∧ (t.err ≠ s.err → s.err = .none ∧ s.run = true ∧ t.run = false)

/-- From a state that meets the invariant a step never faults, and it is refused only for a store to VR_DUMP_WORD
whose operand's four bytes are not all in the instruction and data segments (R30, R70; log entries 7 and 8). -/
def Obligations.OnlyDumpWordIsRefused : Prop :=
  ∀ s : State, Inv s →
    (∀ f, step s ≠ .fault f)
    ∧ ∀ r, step s = .refused r → ∃ i a, decode s.fetch = .ok i ∧ storeAddress s i = some 0x0828
        ∧ r = .dumpWordOutsideImage a ∧ 0x0800 < a.toNat + 4

/-- An end of a run is a clean halt or an error stop, and only a store to VR_HALT ends in a clean halt (R35, R224). -/
def Obligations.TwoKindsOfEnd : Prop :=
  ∀ s t : State, Inv s → s.run = true → step s = .next t → t.run = false →
    (CleanHalt t ∧ ∃ i, decode s.fetch = .ok i ∧ storeAddress s i = some 0x080C) ∨ ErrorStop t

/-! ## Memory (20_memory.md) -/

/-- Reading a byte after a little-endian write of `n` bytes gives the byte written inside the range and the byte
before outside it (R42, R44, R54); the memory has its canonical form, an invariant. -/
def Obligations.MemoryReadAfterWrite : Prop :=
  ∀ (m : Memory) (a b n : Nat) (v : Word), m.wf → isStorage b = true →
    (m.writeBytes a v n).byteAt b = if a ≤ b ∧ b < a + n then v.extractLsb' (8 * (b - a)) 8 else m.byteAt b

/-- No step changes a byte of the instruction segment (R36, R49; the spec derives it). The memory has its canonical
form, an invariant. -/
def Obligations.InstructionSegmentUnchanged : Prop :=
  ∀ s t : State, s.mem.wf → step s = .next t → ∀ a, a < 1024 → t.mem.byteAt a = s.mem.byteAt a

/-- `ALLOC` is changed only by stores to VR_ALLOC and VR_FREE (R29). -/
def Obligations.AllocChangedByRoutinesOnly : Prop :=
  ∀ (i : Instr) (s t : State), exec i s = .next t → t.alloc ≠ s.alloc →
    storeAddress s i = some 0x0830 ∨ storeAddress s i = some 0x0834

/-! ## The heap bank allocator (20_memory.md section 6) -/

/-- `IsValidRange(a, n)` holds exactly when every byte of the range lies in some allocated node; so a range over two
adjacent blocks is valid and one that touches a freed byte is not (R79). -/
def Obligations.ValidRangeIsPerByte : Prop :=
  (∀ (l : List Node) (a n : Nat), isValidRange l a n = true ↔ ∀ b, a ≤ b → b < a + n → Allocated l b)
  ∧ isValidRange [⟨0, 1⟩, ⟨1, 1⟩] 0xB73E 4 = true ∧ isValidRange [⟨0, 1⟩] 0xB73F 2 = false

/-- `Allocate(size)` on a well-formed list (R77): a size of 0 or less or of more than 8192 gives 0 and changes
nothing; else, with `need` the size in banks rounded up, when some run of `need` free banks exists the result is
the address of the lowest such run, the list gains exactly that node and keeps its form, and when none exists the
result is 0 and the list is unchanged. That the gap after the last block counts is the spec's resolution C5 (log
entry 22). -/
def Obligations.AllocateIsFirstFit : Prop :=
  ∀ (size : Int) (l : List Node), allocWf l →
    (size ≤ 0 ∨ 8192 < size → allocate size l = (0, l))
    ∧ ∀ need : Nat, 0 < size → size ≤ 8192 → 64 * ((need : Int) - 1) < size → size ≤ 64 * (need : Int) →
      ((∃ g, FreeBanks l g need) →
        ∃ g, FreeBanks l g need ∧ (∀ g', g' < g → ¬ FreeBanks l g' need)
          ∧ (allocate size l).1.toNat = 0xB700 + 64 * g
          ∧ (allocate size l).2.Perm (⟨g, need⟩ :: l) ∧ allocWf (allocate size l).2)
      ∧ ((¬ ∃ g, FreeBanks l g need) → allocate size l = (0, l))

/-- `Free(a)` on a well-formed list (R78): 0 is always a no-op; the first byte of an allocated block removes its
node, the list keeps its form, and the block's bytes and no others become inaccessible; every other address raises
(the spec's resolution C6, log entry 22), the list then being unchanged or without the node at the truncated bank
index. Which of the two is free (D19), and that the index is rounded toward zero is the model's choice (log entry 6). -/
def Obligations.FreeRemovesExactBlock : Prop :=
  ∀ (a : Word) (l : List Node), allocWf l →
    free? 0 l = some l
    ∧ (∀ nd ∈ l, a.toNat = 0xB700 + 64 * nd.start → free? a l = some (l.erase nd) ∧ allocWf (l.erase nd)
        ∧ ∀ b, Allocated (l.erase nd) b ↔ Allocated l b ∧ ¬ (a.toNat ≤ b ∧ b < a.toNat + 64 * nd.len))
    ∧ (a ≠ 0 → (∀ nd ∈ l, a.toNat ≠ 0xB700 + 64 * nd.start) → free? a l = none)
    ∧ (allocAfterFailedFree a l = l
      ∨ ∃ nd ∈ l, (nd.start : Int) = Int.tdiv (a.toNat - 0xB700) 64 ∧ allocAfterFailedFree a l = l.erase nd)

/-- Freeing the block an allocation has just returned gives the list back as it was (from R77 and R78). -/
def Obligations.FreeUndoesAllocate : Prop :=
  ∀ (size : Int) (l : List Node), allocWf l → (allocate size l).1 ≠ 0 →
    free? (allocate size l).1 (allocate size l).2 = some l

/-- A new block was not accessible before and is accessible after, at least `size` bytes of it, and every other
byte is as accessible as before (from R51, R75, R77). -/
def Obligations.AllocatedBlockIsFresh : Prop :=
  ∀ (size : Int) (l : List Node), allocWf l → (allocate size l).1 ≠ 0 →
    ∃ n : Nat, size ≤ n ∧ (allocate size l).1.toNat + n ≤ 0xD700
      ∧ ∀ b, (Allocated (allocate size l).2 b ↔
          Allocated l b ∨ ((allocate size l).1.toNat ≤ b ∧ b < (allocate size l).1.toNat + n))
        ∧ ((allocate size l).1.toNat ≤ b → b < (allocate size l).1.toNat + n → ¬ Allocated l b)

/-- The source's allocator example, step by step, as R81 evaluates it. -/
def Obligations.AllocatorExample : Prop :=
  allocate 64 [] = (0xB700, [⟨0, 1⟩])
  ∧ allocate 64 [⟨0, 1⟩] = (0xB740, [⟨0, 1⟩, ⟨1, 1⟩])
  ∧ free? 0xB700 [⟨0, 1⟩, ⟨1, 1⟩] = some [⟨1, 1⟩]
  ∧ allocate 128 [⟨1, 1⟩] = (0xB780, [⟨1, 1⟩, ⟨2, 2⟩])
  ∧ allocate 64 [⟨1, 1⟩, ⟨2, 2⟩] = (0xB700, [⟨0, 1⟩, ⟨1, 1⟩, ⟨2, 2⟩])

/-- A well-formed allocation list has at most 128 nodes, which is why HostAllocationFailure cannot arise (R214). -/
def Obligations.AllocHasAtMost128Nodes : Prop :=
  ∀ l : List Node, allocWf l → l.length ≤ 128

/-! ## Reset, invariants, whole runs (10_state.md, 70_reset_and_hazards.md) -/

/-- Reset with an image of 2048 bytes puts byte `i` of the image at address `i`, and gives the pc, the registers,
the status, `ALLOC` and `OUT` their reset values; no other size is accepted (R34, R240, R241). That the pc and
x[1] to x[31] are 0 is the spec's decision D6 (log entry 14). -/
def Obligations.ResetLoadsImage : Prop :=
  ∀ image : List Byte,
    (image.length = 2048 → ∃ s, State.resetWithImage image = some s
      ∧ (∀ (k : Nat) (h : k < image.length), s.mem.byteAt k = image[k])
      ∧ s.pc = 0 ∧ (∀ i, s.reg i = 0) ∧ s.run = true ∧ s.err = .none ∧ s.alloc = [] ∧ s.out = [] ∧ Inv s)
    ∧ (image.length ≠ 2048 → State.resetWithImage image = none)

/-- The invariant holds at reset. That every register is 0 there is the spec's decision D6 (log entry 14), and the
all-zero image is the model's choice (log entry 2). -/
def Obligations.ResetMeetsInvariant : Prop := Inv State.reset

/-- Every step keeps the invariant: x[0] stored as 0, memory and allocation list in their form, `err` never the error
the hardware does not raise, and no error and a pc in bounds while the machine runs (R36, which the spec derives). -/
def Obligations.StepKeepsInvariant : Prop :=
  ∀ s t : State, Inv s → step s = .next t → Inv t

/-- Every step keeps one diagnostic in `OUT` for an error and none without: a diagnostic is appended once, by the
error, and none on a clean halt (R217, R224). -/
def Obligations.OneDiagnosticPerError : Prop :=
  ∀ s t : State, s.out.countP Event.isDiag = (if s.err = .none then 0 else 1) → step s = .next t →
    t.out.countP Event.isDiag = (if t.err = .none then 0 else 1)

/-- In a run of any length from reset with any image, at the start of every cycle: x[0] is 0, the pc is below 1024,
there is no error, the allocation list has its form, and the instruction segment holds the image's first 1024
bytes (R36, which the spec derives). -/
def Obligations.RunsFromAnyImage : Prop :=
  ∀ (image : List Byte) (s t : State) (k : Nat), State.resetWithImage image = some s →
    Host.Core.run Sys2Proof.core k s = .next t → t.run = true →
    t.reg 0 = 0 ∧ t.x[0] = 0 ∧ t.pc.toNat < 1024 ∧ t.err = .none ∧ allocWf t.alloc
    ∧ ∀ a (h : a < image.length), a < 1024 → t.mem.byteAt a = image[a]

/-- A word placed at the pc is the one the next step runs: in a state that starts a cycle, a step after placing a
word that the decoder reads as `i` is `exec i` there, with the end of the cycle (R30, R46). The placing stands for
the load of an image (log entry 2). -/
def Obligations.PlacedWordRuns : Prop :=
  ∀ (s : State) (w : Nat) (i : Instr), Running s → s.mem.wf → decodeTableWord 32 w = some i →
    let s' := s.withFetchWord 32 w
    s'.fetch = BitVec.ofNat 32 w
    ∧ step s' = match exec i s' with
      | .next t => .next (endCycle t)
      | .fault f => .fault f
      | .refused r => .refused r
end

