-- ==== Sys2Proof/Laws/Decode.lean ====
section
/-! SUPPORT. The fields of a masked word and of an encoding, and when a word matches a row of the table, said
on fields. -/

namespace Sys2Proof

/-! ## The three masks on fields (R104) -/

/-- The level 3 mask keeps func7, func3 and opcode. -/
theorem and_maskOpF3F7 (w : Word) :
    w &&& maskOpF3F7
      = (Codec.func7 w ++ (0 : BitVec 10) ++ Codec.func3 w ++ (0 : BitVec 5) ++ Codec.opcode w : BitVec 32) := by
  apply BitVec.eq_of_getLsbD_eq
  intro k hk
  simp only [maskOpF3F7, Codec.func7, Codec.func3, Codec.opcode, BitVec.getLsbD_and, BitVec.getLsbD_append,
    BitVec.getLsbD_extractLsb', BitVec.ofNat_eq_ofNat, BitVec.getLsbD_ofNat]
  interval_cases k <;> simp <;> intro _ <;> decide

/-- The level 2 mask keeps func3 and opcode. -/
theorem and_maskOpF3 (w : Word) :
    w &&& maskOpF3 = ((0 : BitVec 17) ++ Codec.func3 w ++ (0 : BitVec 5) ++ Codec.opcode w : BitVec 32) := by
  apply BitVec.eq_of_getLsbD_eq
  intro k hk
  simp only [maskOpF3, Codec.func3, Codec.opcode, BitVec.getLsbD_and, BitVec.getLsbD_append,
    BitVec.getLsbD_extractLsb', BitVec.ofNat_eq_ofNat, BitVec.getLsbD_ofNat]
  interval_cases k <;> simp <;> intro _ <;> decide

/-- The level 1 mask keeps opcode. -/
theorem and_maskOp (w : Word) : w &&& maskOp = ((0 : BitVec 25) ++ Codec.opcode w : BitVec 32) := by
  apply BitVec.eq_of_getLsbD_eq
  intro k hk
  simp only [maskOp, Codec.opcode, BitVec.getLsbD_and, BitVec.getLsbD_append,
    BitVec.getLsbD_extractLsb', BitVec.ofNat_eq_ofNat, BitVec.getLsbD_ofNat]
  interval_cases k <;> simp <;> intro _ <;> decide

theorem and_ones7 (x : BitVec 7) : x &&& 127#7 = x := BitVec.and_allOnes
theorem and_ones3 (x : BitVec 3) : x &&& 7#3 = x := BitVec.and_allOnes

/-- Two words agree under the level 3 mask exactly when func7, func3 and opcode agree. -/
theorem eq_under_maskOpF3F7 (w v : Word) :
    w &&& maskOpF3F7 = v &&& maskOpF3F7 ↔
      Codec.func7 w = Codec.func7 v ∧ Codec.func3 w = Codec.func3 v ∧ Codec.opcode w = Codec.opcode v := by
  constructor
  · intro h
    have e (lo len : Nat) : (w &&& maskOpF3F7).extractLsb' lo len = (v &&& maskOpF3F7).extractLsb' lo len := by rw [h]
    have e7 := e 25 7
    have e3 := e 12 3
    have e0 := e 0 7
    simp only [BitVec.extractLsb'_and, maskOpF3F7] at e7 e3 e0
    exact ⟨by simpa [Codec.func7, and_ones7] using e7, by simpa [Codec.func3, and_ones3] using e3, by simpa [Codec.opcode, and_ones7] using e0⟩
  · rintro ⟨h7, h3, h0⟩
    rw [and_maskOpF3F7, and_maskOpF3F7, h7, h3, h0]

/-- Two words agree under the level 2 mask exactly when func3 and opcode agree. -/
theorem eq_under_maskOpF3 (w v : Word) :
    w &&& maskOpF3 = v &&& maskOpF3 ↔ Codec.func3 w = Codec.func3 v ∧ Codec.opcode w = Codec.opcode v := by
  constructor
  · intro h
    have e (lo len : Nat) : (w &&& maskOpF3).extractLsb' lo len = (v &&& maskOpF3).extractLsb' lo len := by rw [h]
    have e3 := e 12 3
    have e0 := e 0 7
    simp only [BitVec.extractLsb'_and, maskOpF3] at e3 e0
    exact ⟨by simpa [Codec.func3, and_ones3] using e3, by simpa [Codec.opcode, and_ones7] using e0⟩
  · rintro ⟨h3, h0⟩
    rw [and_maskOpF3, and_maskOpF3, h3, h0]

/-- Two words agree under the level 1 mask exactly when opcode agrees. -/
theorem eq_under_maskOp (w v : Word) : w &&& maskOp = v &&& maskOp ↔ Codec.opcode w = Codec.opcode v := by
  constructor
  · intro h
    have e0 : (w &&& maskOp).extractLsb' 0 7 = (v &&& maskOp).extractLsb' 0 7 := by rw [h]
    simp only [BitVec.extractLsb'_and, maskOp] at e0
    simpa [Codec.opcode, and_ones7] using e0
  · intro h0
    rw [and_maskOp, and_maskOp, h0]

/-! ## The fields of the six encodings (R93, R115) -/

section Fields
variable (f7 : BitVec 7) (f3 : BitVec 3) (op : BitVec 7) (rd rs1 rs2 : RegIdx) (imm : Word)

@[simp] theorem Codec.opcode_encodeR : Codec.opcode (encodeR f7 f3 op rd rs1 rs2) = op := by
  apply BitVec.eq_of_getLsbD_eq
  intro k hk
  simp only [encodeR, Codec.opcode, BitVec.getLsbD_extractLsb', BitVec.getLsbD_append]
  interval_cases k <;> simp

@[simp] theorem Codec.func3_encodeR : Codec.func3 (encodeR f7 f3 op rd rs1 rs2) = f3 := by
  apply BitVec.eq_of_getLsbD_eq
  intro k hk
  simp only [encodeR, Codec.func3, BitVec.getLsbD_extractLsb', BitVec.getLsbD_append]
  interval_cases k <;> simp

@[simp] theorem Codec.func7_encodeR : Codec.func7 (encodeR f7 f3 op rd rs1 rs2) = f7 := by
  apply BitVec.eq_of_getLsbD_eq
  intro k hk
  simp only [encodeR, Codec.func7, BitVec.getLsbD_extractLsb', BitVec.getLsbD_append]
  interval_cases k <;> simp

@[simp] theorem Codec.rd_encodeR : Codec.rd (encodeR f7 f3 op rd rs1 rs2) = rd := by
  apply BitVec.eq_of_getLsbD_eq
  intro k hk
  simp only [encodeR, Codec.rd, BitVec.getLsbD_extractLsb', BitVec.getLsbD_append]
  interval_cases k <;> simp

@[simp] theorem Codec.rs1_encodeR : Codec.rs1 (encodeR f7 f3 op rd rs1 rs2) = rs1 := by
  apply BitVec.eq_of_getLsbD_eq
  intro k hk
  simp only [encodeR, Codec.rs1, BitVec.getLsbD_extractLsb', BitVec.getLsbD_append]
  interval_cases k <;> simp

@[simp] theorem Codec.rs2_encodeR : Codec.rs2 (encodeR f7 f3 op rd rs1 rs2) = rs2 := by
  apply BitVec.eq_of_getLsbD_eq
  intro k hk
  simp only [encodeR, Codec.rs2, BitVec.getLsbD_extractLsb', BitVec.getLsbD_append]
  interval_cases k <;> simp

@[simp] theorem Codec.opcode_encodeI : Codec.opcode (encodeI f3 op rd rs1 imm) = op := by
  apply BitVec.eq_of_getLsbD_eq
  intro k hk
  simp only [encodeI, Codec.opcode, BitVec.getLsbD_extractLsb', BitVec.getLsbD_append]
  interval_cases k <;> simp

@[simp] theorem Codec.func3_encodeI : Codec.func3 (encodeI f3 op rd rs1 imm) = f3 := by
  apply BitVec.eq_of_getLsbD_eq
  intro k hk
  simp only [encodeI, Codec.func3, BitVec.getLsbD_extractLsb', BitVec.getLsbD_append]
  interval_cases k <;> simp

@[simp] theorem Codec.rd_encodeI : Codec.rd (encodeI f3 op rd rs1 imm) = rd := by
  apply BitVec.eq_of_getLsbD_eq
  intro k hk
  simp only [encodeI, Codec.rd, BitVec.getLsbD_extractLsb', BitVec.getLsbD_append]
  interval_cases k <;> simp

@[simp] theorem Codec.rs1_encodeI : Codec.rs1 (encodeI f3 op rd rs1 imm) = rs1 := by
  apply BitVec.eq_of_getLsbD_eq
  intro k hk
  simp only [encodeI, Codec.rs1, BitVec.getLsbD_extractLsb', BitVec.getLsbD_append]
  interval_cases k <;> simp

@[simp] theorem Codec.opcode_encodeS : Codec.opcode (encodeS f3 op rs1 rs2 imm) = op := by
  apply BitVec.eq_of_getLsbD_eq
  intro k hk
  simp only [encodeS, Codec.opcode, BitVec.getLsbD_extractLsb', BitVec.getLsbD_append]
  interval_cases k <;> simp

@[simp] theorem Codec.func3_encodeS : Codec.func3 (encodeS f3 op rs1 rs2 imm) = f3 := by
  apply BitVec.eq_of_getLsbD_eq
  intro k hk
  simp only [encodeS, Codec.func3, BitVec.getLsbD_extractLsb', BitVec.getLsbD_append]
  interval_cases k <;> simp

@[simp] theorem Codec.rs1_encodeS : Codec.rs1 (encodeS f3 op rs1 rs2 imm) = rs1 := by
  apply BitVec.eq_of_getLsbD_eq
  intro k hk
  simp only [encodeS, Codec.rs1, BitVec.getLsbD_extractLsb', BitVec.getLsbD_append]
  interval_cases k <;> simp

@[simp] theorem Codec.rs2_encodeS : Codec.rs2 (encodeS f3 op rs1 rs2 imm) = rs2 := by
  apply BitVec.eq_of_getLsbD_eq
  intro k hk
  simp only [encodeS, Codec.rs2, BitVec.getLsbD_extractLsb', BitVec.getLsbD_append]
  interval_cases k <;> simp

@[simp] theorem Codec.opcode_encodeSB : Codec.opcode (encodeSB f3 op rs1 rs2 imm) = op := by
  apply BitVec.eq_of_getLsbD_eq
  intro k hk
  simp only [encodeSB, Codec.opcode, BitVec.getLsbD_extractLsb', BitVec.getLsbD_append]
  interval_cases k <;> simp

@[simp] theorem Codec.func3_encodeSB : Codec.func3 (encodeSB f3 op rs1 rs2 imm) = f3 := by
  apply BitVec.eq_of_getLsbD_eq
  intro k hk
  simp only [encodeSB, Codec.func3, BitVec.getLsbD_extractLsb', BitVec.getLsbD_append]
  interval_cases k <;> simp

@[simp] theorem Codec.rs1_encodeSB : Codec.rs1 (encodeSB f3 op rs1 rs2 imm) = rs1 := by
  apply BitVec.eq_of_getLsbD_eq
  intro k hk
  simp only [encodeSB, Codec.rs1, BitVec.getLsbD_extractLsb', BitVec.getLsbD_append]
  interval_cases k <;> simp

@[simp] theorem Codec.rs2_encodeSB : Codec.rs2 (encodeSB f3 op rs1 rs2 imm) = rs2 := by
  apply BitVec.eq_of_getLsbD_eq
  intro k hk
  simp only [encodeSB, Codec.rs2, BitVec.getLsbD_extractLsb', BitVec.getLsbD_append]
  interval_cases k <;> simp

@[simp] theorem Codec.opcode_encodeU : Codec.opcode (encodeU op rd imm) = op := by
  apply BitVec.eq_of_getLsbD_eq
  intro k hk
  simp only [encodeU, Codec.opcode, BitVec.getLsbD_extractLsb', BitVec.getLsbD_append]
  interval_cases k <;> simp

@[simp] theorem Codec.rd_encodeU : Codec.rd (encodeU op rd imm) = rd := by
  apply BitVec.eq_of_getLsbD_eq
  intro k hk
  simp only [encodeU, Codec.rd, BitVec.getLsbD_extractLsb', BitVec.getLsbD_append]
  interval_cases k <;> simp

@[simp] theorem Codec.opcode_encodeUJ : Codec.opcode (encodeUJ op rd imm) = op := by
  apply BitVec.eq_of_getLsbD_eq
  intro k hk
  simp only [encodeUJ, Codec.opcode, BitVec.getLsbD_extractLsb', BitVec.getLsbD_append]
  interval_cases k <;> simp

@[simp] theorem Codec.rd_encodeUJ : Codec.rd (encodeUJ op rd imm) = rd := by
  apply BitVec.eq_of_getLsbD_eq
  intro k hk
  simp only [encodeUJ, Codec.rd, BitVec.getLsbD_extractLsb', BitVec.getLsbD_append]
  interval_cases k <;> simp

theorem Codec.immI_encodeI : Codec.immI (encodeI f3 op rd rs1 imm) = (imm.extractLsb' 0 12 : BitVec 12).signExtend 32 := by
  unfold Codec.immI
  congr 1
  apply BitVec.eq_of_getLsbD_eq
  intro k hk
  simp only [encodeI, BitVec.getLsbD_extractLsb', BitVec.getLsbD_append]
  interval_cases k <;> simp

theorem Codec.immS_encodeS : Codec.immS (encodeS f3 op rs1 rs2 imm) = (imm.extractLsb' 0 12 : BitVec 12).signExtend 32 := by
  unfold Codec.immS
  congr 1
  apply BitVec.eq_of_getLsbD_eq
  intro k hk
  simp only [encodeS, BitVec.getLsbD_extractLsb', BitVec.getLsbD_append]
  interval_cases k <;> simp

theorem Codec.immSB_encodeSB : Codec.immSB (encodeSB f3 op rs1 rs2 imm) = (imm.extractLsb' 1 12 ++ (0 : BitVec 1) : BitVec 13).signExtend 32 := by
  unfold Codec.immSB
  congr 1
  apply BitVec.eq_of_getLsbD_eq
  intro k hk
  simp only [encodeSB, BitVec.getLsbD_extractLsb', BitVec.getLsbD_append]
  interval_cases k <;> simp

theorem Codec.immUJ_encodeUJ : Codec.immUJ (encodeUJ op rd imm) = (imm.extractLsb' 1 20 ++ (0 : BitVec 1) : BitVec 21).signExtend 32 := by
  unfold Codec.immUJ
  congr 1
  apply BitVec.eq_of_getLsbD_eq
  intro k hk
  simp only [encodeUJ, BitVec.getLsbD_extractLsb', BitVec.getLsbD_append]
  interval_cases k <;> simp

theorem Codec.immU_encodeU : Codec.immU (encodeU op rd imm) = imm.extractLsb' 12 20 ++ (0 : BitVec 12) := by
  apply BitVec.eq_of_getLsbD_eq
  intro k hk
  simp only [Codec.immU, encodeU, BitVec.getLsbD_extractLsb', BitVec.getLsbD_append]
  interval_cases k <;> simp

end Fields

/-! ## Immediates that fit their format are what decoding assembles (R102) -/

/-- The bits below `n` of a value in the signed `n`-bit range give it back by sign extension. -/
theorem signExtend_extract (n : Nat) (hn : n ≤ 32) (imm : Word)
    (h : imm.toInt.bmod (2 ^ n) = imm.toInt) : (imm.extractLsb' 0 n).signExtend 32 = imm := by
  apply BitVec.eq_of_toInt_eq
  rw [BitVec.toInt_signExtend_of_le hn, BitVec.toInt_eq_toNat_bmod, BitVec.extractLsb'_toNat, Nat.shiftRight_zero]
  conv_rhs => rw [← h]
  rw [BitVec.toInt_eq_toNat_bmod, Int.bmod_bmod_of_dvd (by exact_mod_cast Nat.pow_dvd_pow 2 hn)]
  rw [Int.natCast_emod]
  exact Int.emod_bmod _ _

/-- Appending the dropped bit of an even value gives its low bits back. -/
theorem extract_even (n : Nat) (imm : Word) (h : imm.toNat % 2 = 0) :
    (imm.extractLsb' 1 n ++ (0 : BitVec 1) : BitVec (n + 1)) = imm.extractLsb' 0 (n + 1) := by
  have h0 : imm[0] = false := by simp [BitVec.getElem_eq_testBit_toNat, Nat.testBit_zero, h]
  apply BitVec.eq_of_getLsbD_eq
  intro k hk
  rw [BitVec.getLsbD_append]
  rcases k with _ | k
  · simp [h0]
  · simp [Nat.add_comm 1 k, hk, Nat.lt_of_succ_lt_succ hk]

theorem signExtend_of_fits12 {imm : Word} (h : immFits12 imm = true) : (imm.extractLsb' 0 12).signExtend 32 = imm := by
  simp only [immFits12, Bool.and_eq_true, decide_eq_true_eq] at h
  exact signExtend_extract 12 (by decide) imm (Int.bmod_eq_of_le (by simp; omega) (by simp; omega))

theorem signExtend_of_fitsSB {imm : Word} (h : immFitsSB imm = true) :
    (imm.extractLsb' 1 12 ++ (0 : BitVec 1) : BitVec 13).signExtend 32 = imm := by
  simp only [immFitsSB, Bool.and_eq_true, decide_eq_true_eq] at h
  rw [extract_even 12 imm h.2]
  exact signExtend_extract 13 (by decide) imm (Int.bmod_eq_of_le (by simp; omega) (by simp; omega))

theorem signExtend_of_fitsUJ {imm : Word} (h : immFitsUJ imm = true) :
    (imm.extractLsb' 1 20 ++ (0 : BitVec 1) : BitVec 21).signExtend 32 = imm := by
  simp only [immFitsUJ, Bool.and_eq_true, decide_eq_true_eq] at h
  rw [extract_even 20 imm h.2]
  exact signExtend_extract 21 (by decide) imm (Int.bmod_eq_of_le (by simp; omega) (by simp; omega))

theorem append_of_fitsU {imm : Word} (h : immFitsU imm = true) :
    (imm.extractLsb' 12 20 ++ (0 : BitVec 12) : BitVec 32) = imm := by
  simp only [immFitsU, decide_eq_true_eq] at h
  apply BitVec.eq_of_toNat_eq
  rw [BitVec.toNat_append, BitVec.extractLsb'_toNat]
  simp [Nat.shiftRight_eq_div_pow, Nat.shiftLeft_eq]
  omega

/-! ## When a word matches a row, on fields (R108) -/

theorem rowR_hits {id w : Word} (c : RegIdx → RegIdx → RegIdx → Instr) (h : id &&& maskOpF3F7 = id) :
    (rowR id c).hits w = true ↔
      Codec.func7 w = Codec.func7 id ∧ Codec.func3 w = Codec.func3 id ∧ Codec.opcode w = Codec.opcode id := by
  rw [← eq_under_maskOpF3F7, h]; simp [Row.hits, rowR]

theorem rowI_hits {id w : Word} (c : RegIdx → RegIdx → Word → Instr) (h : id &&& maskOpF3 = id) :
    (rowI id c).hits w = true ↔ Codec.func3 w = Codec.func3 id ∧ Codec.opcode w = Codec.opcode id := by
  rw [← eq_under_maskOpF3, h]; simp [Row.hits, rowI]

theorem rowS_hits {id w : Word} (c : RegIdx → RegIdx → Word → Instr) (h : id &&& maskOpF3 = id) :
    (rowS id c).hits w = true ↔ Codec.func3 w = Codec.func3 id ∧ Codec.opcode w = Codec.opcode id := by
  rw [← eq_under_maskOpF3, h]; simp [Row.hits, rowS]

theorem rowSB_hits {id w : Word} (c : RegIdx → RegIdx → Word → Instr) (h : id &&& maskOpF3 = id) :
    (rowSB id c).hits w = true ↔ Codec.func3 w = Codec.func3 id ∧ Codec.opcode w = Codec.opcode id := by
  rw [← eq_under_maskOpF3, h]; simp [Row.hits, rowSB]

theorem rowU_hits {id w : Word} (c : RegIdx → Word → Instr) (h : id &&& maskOp = id) :
    (rowU id c).hits w = true ↔ Codec.opcode w = Codec.opcode id := by
  rw [← eq_under_maskOp, h]; simp [Row.hits, rowU]

theorem rowUJ_hits {id w : Word} (c : RegIdx → Word → Instr) (h : id &&& maskOp = id) :
    (rowUJ id c).hits w = true ↔ Codec.opcode w = Codec.opcode id := by
  rw [← eq_under_maskOp, h]; simp [Row.hits, rowUJ]

/-- What decoding a word to an instruction means: some row of the table matches and builds it. -/
theorem decode_ok {w : Word} {i : Instr} (h : decode w = .ok i) : ∃ r ∈ table, r.hits w = true ∧ r.build w = i := by
  unfold decode at h
  split at h
  · rename_i r hr
    exact ⟨r, List.mem_of_find?_eq_some hr, by simpa using List.find?_some hr, by simpa using h⟩
  · simp at h

end Sys2Proof
end

