-- ==== Sys2Proof/Laws/Memory.lean ====
section
/-! SUPPORT. The laws of the storage array: what reads give after a write, and that every memory operation
keeps the canonical form. -/

namespace Sys2Proof.Machine

open Sys2Proof

/-- What an address holds: its cell, or what an unlisted address holds. -/
def Memory.held (m : Memory) (a : Nat) : Option Byte := (m.lookup a).or (unlistedByte a)

theorem Memory.byteAt_eq_held (m : Memory) (a : Nat) :
    m.byteAt a = (m.held a).getD (Config.heapResetByte (a - Config.heapBase)) := by
  unfold Memory.byteAt Memory.held
  cases m.lookup a <;> rfl

/-- An address below every listed one is unlisted. -/
theorem Memory.lookup_none_of_lt {m : Memory} {a : Nat} (h : ∀ c ∈ m, a < c.1) : m.lookup a = none := by
  rw [List.lookup_eq_none_iff]
  intro c hc
  simpa using (h c hc).ne

theorem Memory.held_nil (c : Nat) : Memory.held [] c = unlistedByte c := rfl

theorem Memory.held_cons (d : Nat) (e : Byte) (l : Memory) (c : Nat) :
    Memory.held ((d, e) :: l) c = if c = d then some e else Memory.held l c := by
  by_cases h : c = d
  · subst h; simp [Memory.held]
  · simp [Memory.held, List.lookup, beq_false_of_ne h, h]

/-- Below every listed address an address holds what an unlisted one holds. -/
theorem Memory.held_of_lt {m : Memory} {a : Nat} (h : ∀ c ∈ m, a < c.1) : m.held a = unlistedByte a := by
  simp [Memory.held, Memory.lookup_none_of_lt h]

/-- What an address holds after `put`. -/
theorem Memory.held_put {m : Memory} (a : Nat) (b : Byte) (hm : m.Pairwise fun p q => p.1 < q.1) (c : Nat) :
    (Memory.put a b m).held c = if c = a then some b else m.held c := by
  induction m with
  | nil =>
    unfold Memory.put
    split <;> by_cases h : c = a <;> simp_all [Memory.held_nil, Memory.held_cons]
  | cons p rest ih =>
    obtain ⟨d, e⟩ := p
    have ⟨hlt, hr⟩ := List.pairwise_cons.mp hm
    have hrest : a ≤ d → Memory.held rest a = unlistedByte a :=
      fun h => Memory.held_of_lt fun q hq => h.trans_lt (hlt q hq)
    unfold Memory.put
    rcases Nat.lt_trichotomy a d with h | h | h
    · have := hrest h.le
      have := h.ne
      by_cases hc : c = a <;> by_cases hb : unlistedByte a = some b <;>
        simp_all [Memory.held_cons]
    · subst h
      have := hrest le_rfl
      by_cases hc : c = a <;> by_cases hb : unlistedByte a = some b <;>
        simp_all [Memory.held_cons]
    · have := h.ne
      simp only [h.not_gt, h.ne', if_false, Memory.held_cons, ih hr]
      by_cases hc : c = d <;> simp_all

/-- A cell of the list after `put` is the new one or an old one at another address. -/
theorem Memory.mem_put {m : Memory} {a : Nat} {b : Byte} {c : Host.Cell} (h : c ∈ Memory.put a b m) :
    (c = (a, b) ∧ unlistedByte a ≠ some b) ∨ c ∈ m := by
  induction m with
  | nil =>
    unfold Memory.put at h
    split at h <;> simp_all
  | cons p rest ih =>
    obtain ⟨d, e⟩ := p
    unfold Memory.put at h
    split at h
    · split at h <;> simp_all
    · split at h
      · split at h <;> simp_all
        grind
      · simp only [List.mem_cons] at h
        grind

theorem Memory.put_pairwise {m : Memory} (a : Nat) (b : Byte) (hm : m.Pairwise fun p q => p.1 < q.1) :
    (Memory.put a b m).Pairwise fun p q => p.1 < q.1 := by
  induction m with
  | nil => unfold Memory.put; split <;> simp
  | cons p rest ih =>
    obtain ⟨d, e⟩ := p
    have ⟨hlt, hr⟩ := List.pairwise_cons.mp hm
    unfold Memory.put
    split
    · rename_i h
      split
      · exact hm
      · refine List.pairwise_cons.mpr ⟨?_, hm⟩
        intro q hq
        rcases List.mem_cons.mp hq with rfl | hq
        · exact h
        · exact h.trans (hlt q hq)
    · split
      · rename_i h
        split
        · exact hr
        · exact List.pairwise_cons.mpr ⟨fun q hq => h ▸ hlt q hq, hr⟩
      · refine List.pairwise_cons.mpr ⟨?_, ih hr⟩
        intro q hq
        rcases Memory.mem_put hq with ⟨rfl, -⟩ | hq
        · simp; omega
        · exact hlt q hq

/-- Storing one byte keeps the canonical form. -/
theorem Memory.setByte_wf {m : Memory} (a : Nat) (b : Byte) (hm : m.wf) : (m.setByte a b).wf := by
  unfold Memory.setByte
  split
  · rename_i h
    refine ⟨Memory.put_pairwise a b hm.1, ?_⟩
    intro c hc
    rcases Memory.mem_put hc with ⟨rfl, hb⟩ | hc
    · exact ⟨h, hb⟩
    · exact hm.2 c hc
  · exact hm

/-- Storing a little-endian value keeps the canonical form. -/
theorem Memory.writeBytes_wf {m : Memory} (a : Nat) (v : Word) (n : Nat) (hm : m.wf) : (m.writeBytes a v n).wf := by
  induction n with
  | zero => exact hm
  | succ n ih => exact Memory.setByte_wf _ _ ih

/-- Storing a list of bytes keeps the canonical form. -/
theorem Memory.load_wf {m : Memory} (a : Nat) (bs : List Byte) (hm : m.wf) : (m.load a bs).wf := by
  induction bs generalizing m a with
  | nil => exact hm
  | cons b bs ih => exact ih (a + 1) (Memory.setByte_wf a b hm)

/-- The memory of the reset state has the canonical form. -/
theorem State.reset_mem_wf : State.reset.mem.wf := by decide

/-- What one byte reads as after one byte was stored. -/
theorem Memory.byteAt_setByte {m : Memory} (a : Nat) (b : Byte) (hm : m.wf) (c : Nat) :
    (m.setByte a b).byteAt c = if c = a ∧ isStorage a = true then b else m.byteAt c := by
  unfold Memory.setByte
  by_cases h : isStorage a = true
  · simp only [h, if_true, and_true]
    rw [Memory.byteAt_eq_held, Memory.byteAt_eq_held, Memory.held_put a b hm.1]
    split <;> rfl
  · simp [h]

/-- A little-endian value of width `n` depends on the bytes of its range alone. -/
theorem Memory.readBytes_congr {m m' : Memory} {a : Nat} (w : Width)
    (h : ∀ b, a ≤ b → b < a + widthBytes w → m'.byteAt b = m.byteAt b) : m'.readBytes a w = m.readBytes a w := by
  cases w <;> simp only [Memory.readBytes, widthBytes] at * <;>
    simp [h a (by omega) (by omega)]
  · rw [h (a + 1) (by omega) (by omega)]
  · rw [h (a + 1) (by omega) (by omega), h (a + 2) (by omega) (by omega), h (a + 3) (by omega) (by omega)]

end Sys2Proof.Machine
end

