-- ==== Sys2Proof/Laws/State.lean ====
section
/-! SUPPORT. One lemma per field per update of the state, and reading a register after each update. -/

namespace Sys2Proof.Machine

open Sys2Proof

@[simp] theorem State.setPc_x (s : State) (p : Word) : (s.setPc p).x = s.x := rfl
@[simp] theorem State.setPc_pc (s : State) (p : Word) : (s.setPc p).pc = p := rfl
@[simp] theorem State.setPc_run (s : State) (p : Word) : (s.setPc p).run = s.run := rfl
@[simp] theorem State.setPc_err (s : State) (p : Word) : (s.setPc p).err = s.err := rfl
@[simp] theorem State.setPc_mem (s : State) (p : Word) : (s.setPc p).mem = s.mem := rfl
@[simp] theorem State.setPc_alloc (s : State) (p : Word) : (s.setPc p).alloc = s.alloc := rfl
@[simp] theorem State.setPc_out (s : State) (p : Word) : (s.setPc p).out = s.out := rfl

@[simp] theorem State.raise_x (s : State) (e : ErrCode) : (s.raise e).x = s.x := rfl
@[simp] theorem State.raise_pc (s : State) (e : ErrCode) : (s.raise e).pc = s.pc := rfl
@[simp] theorem State.raise_run (s : State) (e : ErrCode) : (s.raise e).run = false := rfl
@[simp] theorem State.raise_err (s : State) (e : ErrCode) : (s.raise e).err = e := rfl
@[simp] theorem State.raise_mem (s : State) (e : ErrCode) : (s.raise e).mem = s.mem := rfl
@[simp] theorem State.raise_alloc (s : State) (e : ErrCode) : (s.raise e).alloc = s.alloc := rfl
@[simp] theorem State.raise_out (s : State) (e : ErrCode) : (s.raise e).out = s.out ++ [.diag e s.regs s.pc] := rfl

@[simp] theorem State.clearX0_x (s : State) : s.clearX0.x = s.x.set 0 0 := rfl
@[simp] theorem State.clearX0_pc (s : State) : s.clearX0.pc = s.pc := rfl
@[simp] theorem State.clearX0_run (s : State) : s.clearX0.run = s.run := rfl
@[simp] theorem State.clearX0_err (s : State) : s.clearX0.err = s.err := rfl
@[simp] theorem State.clearX0_mem (s : State) : s.clearX0.mem = s.mem := rfl
@[simp] theorem State.clearX0_alloc (s : State) : s.clearX0.alloc = s.alloc := rfl
@[simp] theorem State.clearX0_out (s : State) : s.clearX0.out = s.out := rfl

@[simp] theorem State.emit_x (s : State) (e : Event) : (s.emit e).x = s.x := rfl
@[simp] theorem State.emit_pc (s : State) (e : Event) : (s.emit e).pc = s.pc := rfl
@[simp] theorem State.emit_run (s : State) (e : Event) : (s.emit e).run = s.run := rfl
@[simp] theorem State.emit_err (s : State) (e : Event) : (s.emit e).err = s.err := rfl
@[simp] theorem State.emit_mem (s : State) (e : Event) : (s.emit e).mem = s.mem := rfl
@[simp] theorem State.emit_alloc (s : State) (e : Event) : (s.emit e).alloc = s.alloc := rfl
@[simp] theorem State.emit_out (s : State) (e : Event) : (s.emit e).out = s.out ++ [e] := rfl

@[simp] theorem State.setReg_pc (s : State) (i : RegIdx) (v : Word) : (s.setReg i v).pc = s.pc := by
  unfold State.setReg; split <;> rfl
@[simp] theorem State.setReg_run (s : State) (i : RegIdx) (v : Word) : (s.setReg i v).run = s.run := by
  unfold State.setReg; split <;> rfl
@[simp] theorem State.setReg_err (s : State) (i : RegIdx) (v : Word) : (s.setReg i v).err = s.err := by
  unfold State.setReg; split <;> rfl
@[simp] theorem State.setReg_mem (s : State) (i : RegIdx) (v : Word) : (s.setReg i v).mem = s.mem := by
  unfold State.setReg; split <;> rfl
@[simp] theorem State.setReg_alloc (s : State) (i : RegIdx) (v : Word) : (s.setReg i v).alloc = s.alloc := by
  unfold State.setReg; split <;> rfl
@[simp] theorem State.setReg_out (s : State) (i : RegIdx) (v : Word) : (s.setReg i v).out = s.out := by
  unfold State.setReg; split <;> rfl

/-! ## Reading a register -/

/-- Index 0 reads as 0 (R21). -/
@[simp] theorem State.reg_zero (s : State) : s.reg 0#5 = 0#32 := rfl

/-- The registers read depend on the register storage alone. -/
theorem State.reg_congr {s t : State} (h : t.x = s.x) (i : RegIdx) : t.reg i = s.reg i := by
  unfold State.reg; simp [h]

@[simp] theorem State.setPc_reg (s : State) (p : Word) (i : RegIdx) : (s.setPc p).reg i = s.reg i := rfl
@[simp] theorem State.raise_reg (s : State) (e : ErrCode) (i : RegIdx) : (s.raise e).reg i = s.reg i := rfl
@[simp] theorem State.emit_reg (s : State) (e : Event) (i : RegIdx) : (s.emit e).reg i = s.reg i := rfl
@[simp] theorem State.withMem_reg (s : State) (m : Memory) (i : RegIdx) :
    State.reg { s with mem := m } i = s.reg i := rfl
@[simp] theorem State.withRun_reg (s : State) (b : Bool) (i : RegIdx) :
    State.reg { s with run := b } i = s.reg i := rfl
@[simp] theorem State.withAlloc_reg (s : State) (l : List Node) (i : RegIdx) :
    State.reg { s with alloc := l } i = s.reg i := rfl

/-- Clearing the storage of x[0] changes no register as read. -/
@[simp] theorem State.clearX0_reg (s : State) (i : RegIdx) : s.clearX0.reg i = s.reg i := by
  unfold State.reg State.clearX0
  split
  · rfl
  · rename_i h
    have h' : (0 : Nat) ≠ i.toNat := fun e => h (BitVec.eq_of_toNat_eq (by simpa using e.symm))
    simp [h']

/-- A write to the storage of a register other than x[0] leaves x[0] alone. -/
theorem State.setReg_x0 (s : State) (i : RegIdx) (v : Word) : (s.setReg i v).x[0] = s.x[0] := by
  unfold State.setReg
  split
  · rfl
  · rename_i h
    have h' : i.toNat ≠ 0 := fun e => h (BitVec.eq_of_toNat_eq (by simpa using e))
    simp [h']

end Sys2Proof.Machine
end

