-- ==== Sys2Proof/Laws/Dispatcher.lean ====
section
/-! SUPPORT. What each shared operation can do, said once: the virtual routines, the two dispatch algorithms, the
instruction shapes and the end of a cycle. -/

namespace Sys2Proof.Machine

open Sys2Proof

/-! ## Virtual routines -/

/-- What a routine that completes leaves as it was: memory, pc, err, the storage of x[0]; and what it may change:
the run flag (halt only), `ALLOC` and x28 (the heap routines only), and `OUT` by at most one event, never a
diagnostic. -/
theorem invoke_done {r : WriteRoutine} {w : Width} {v : Word} {s t : State} (h : invoke r w v s = .done () t) :
    t.mem = s.mem ∧ t.pc = s.pc ∧ t.err = s.err ∧ t.x[0] = s.x[0]
    ∧ (r ≠ .halt → t.run = s.run) ∧ (r = .halt → t.run = false)
    ∧ (r ≠ .heapAlloc → r ≠ .heapFree → t.alloc = s.alloc)
    ∧ (r ≠ .heapAlloc → t.x = s.x) ∧ (∀ i, i ≠ 28 → t.reg i = s.reg i)
    ∧ (t.out = s.out ∨ ∃ e, Event.isDiag e = false ∧ t.out = s.out ++ [e]) := by
  cases r <;>
    simp only [invoke, charOut, intOut, hexOut, halt, dumpPc, dumpRegs, dumpWord, heapAlloc, heapFree] at h
  case dumpWord =>
    split at h <;> cases h
    simp [State.reg, Event.isDiag]
  case heapFree =>
    split at h <;> cases h
    simp
  case heapAlloc =>
    cases h
    have h0 := State.setReg_x0 { s with alloc := (allocate (devOperand w v).toInt s.alloc).2 } Config.allocReg
      (allocate (devOperand w v).toInt s.alloc).1
    refine ⟨by simp, by simp, by simp, h0, by simp, by simp, by simp, by simp, ?_, by simp⟩
    intro i hi
    simp only [State.setReg, State.reg, Config.allocReg]
    split
    · rfl
    · have : (28#5).toNat ≠ i.toNat := fun e => hi (BitVec.eq_of_toNat_eq (by simpa using e.symm))
      simp_all
  all_goals
    cases h
    simp [State.reg, Event.isDiag]

/-- A routine that raises changes nothing but `ALLOC`, and only heap-free raises. -/
theorem invoke_illegal {r : WriteRoutine} {w : Width} {v : Word} {s t : State} (h : invoke r w v s = .illegal t) :
    r = .heapFree ∧ t = { s with alloc := allocAfterFailedFree (devOperand w v) s.alloc } := by
  cases r <;>
    simp only [invoke, charOut, intOut, hexOut, halt, dumpPc, dumpRegs, dumpWord, heapAlloc, heapFree] at h
  case dumpWord => split at h <;> cases h
  case heapFree => split at h <;> cases h; exact ⟨rfl, rfl⟩
  all_goals cases h

/-- A routine refuses only dump-memory-word outside the instruction and data segments. -/
theorem invoke_refused {r : WriteRoutine} {w : Width} {v : Word} {s : State} {e : Refusal}
    (h : invoke r w v s = .refused e) :
    r = .dumpWord ∧ e = .dumpWordOutsideImage (devOperand w v) ∧ inInstData (devOperand w v).toNat 4 = false := by
  cases r <;>
    simp only [invoke, charOut, intOut, hexOut, halt, dumpPc, dumpRegs, dumpWord, heapAlloc, heapFree] at h
  case dumpWord => split at h <;> cases h; simp_all
  case heapFree => split at h <;> cases h
  all_goals cases h

/-- The address of each write routine (R73). -/
theorem writeRoutineAt_some {a : Word} {r : WriteRoutine} (h : writeRoutineAt a = some r) :
    (r = .charOut ∧ a = 0x0800) ∨ (r = .intOut ∧ a = 0x0804) ∨ (r = .hexOut ∧ a = 0x0808) ∨ (r = .halt ∧ a = 0x080C)
    ∨ (r = .dumpPc ∧ a = 0x0820) ∨ (r = .dumpRegs ∧ a = 0x0824) ∨ (r = .dumpWord ∧ a = 0x0828)
    ∨ (r = .heapAlloc ∧ a = 0x0830) ∨ (r = .heapFree ∧ a = 0x0834) := by
  unfold writeRoutineAt at h
  split_ifs at h <;> simp_all

/-- An address is a write routine's exactly when it is one of the nine (R47). -/
theorem writeRoutineAt_none_iff (a : Word) : writeRoutineAt a = none ↔ ¬ IsWriteRoutine a.toNat := by
  simp only [writeRoutineAt, IsWriteRoutine, ← BitVec.toNat_inj]
  split_ifs <;> simp_all

/-- An address is a read routine's exactly when it is one of the two (R47). -/
theorem readRoutineAt_none_iff (a : Word) : readRoutineAt a = none ↔ ¬ IsReadRoutine a.toNat := by
  simp only [readRoutineAt, IsReadRoutine, ← BitVec.toNat_inj]
  split_ifs <;> simp_all

/-! ## The dispatcher -/

/-- The plain-read condition of `memRead` (R50 steps 2 and 3). -/
def plainRead (s : State) (a n : Nat) : Bool := inInstData a n || (inHeap a n && isValidRange s.alloc a n)

/-- The plain-write condition of `memWrite` (R49 steps 2 and 3). -/
def plainWrite (s : State) (a n : Nat) : Bool := inData a n || (inHeap a n && isValidRange s.alloc a n)

/-- All a read can do (R50). -/
theorem memRead_cases (s : State) (a : Word) (w : Width) :
    (∃ r, readRoutineAt a = some r
      ∧ memRead s a w = .done (zext (8 * widthBytes w) (consoleRead r s).1) (consoleRead r s).2)
    ∨ (readRoutineAt a = none ∧ plainRead s a.toNat (widthBytes w) = true
      ∧ memRead s a w = .done (s.mem.readBytes a.toNat w) s)
    ∨ (readRoutineAt a = none ∧ plainRead s a.toNat (widthBytes w) = false ∧ memRead s a w = .illegal s) := by
  unfold memRead plainRead
  split
  · rename_i r hr; exact .inl ⟨r, hr, rfl⟩
  · split_ifs <;> simp_all

/-- All a write can do (R49). -/
theorem memWrite_cases (s : State) (a : Word) (w : Width) (v : Word) :
    (∃ r, writeRoutineAt a = some r ∧ memWrite s a w v = invoke r w v s)
    ∨ (writeRoutineAt a = none ∧ plainWrite s a.toNat (widthBytes w) = true
      ∧ memWrite s a w v = .done () { s with mem := s.mem.writeBytes a.toNat v (widthBytes w) })
    ∨ (writeRoutineAt a = none ∧ plainWrite s a.toNat (widthBytes w) = false ∧ memWrite s a w v = .illegal s) := by
  unfold memWrite plainWrite
  split
  · rename_i r hr; exact .inl ⟨r, hr, rfl⟩
  · split_ifs <;> simp_all

/-- A console read appends one event, never a diagnostic, and changes nothing else. -/
theorem consoleRead_state (r : ReadRoutine) (s : State) :
    ∃ e, Event.isDiag e = false ∧ (consoleRead r s).2 = s.emit e := by
  cases r <;> exact ⟨_, rfl, rfl⟩

/-! ## The instruction shapes -/

/-- All a load can do: write `x[rd]` and move the pc, after at most one console event; or raise. -/
theorem load_next {w : Width} {ext : Word → Word} {rd rs1 : RegIdx} {imm : Word} {s t : State}
    (h : load w ext rd rs1 imm s = .next t) :
    (∃ v s', (s' = s ∨ ∃ e, Event.isDiag e = false ∧ s' = s.emit e) ∧ t = (s'.setReg rd v).setPc s'.nextPc)
    ∨ t = s.raise .illegalOperation := by
  unfold load at h
  rcases memRead_cases s (s.ea rs1 imm) w with ⟨r, -, hr⟩ | ⟨-, -, hr⟩ | ⟨-, -, hr⟩ <;> rw [hr] at h <;> cases h
  · exact .inl ⟨_, _, .inr (consoleRead_state r s), rfl⟩
  · exact .inl ⟨_, _, .inl rfl, rfl⟩
  · exact .inr rfl

/-- A load always answers a next state. -/
theorem load_not_stuck (w : Width) (ext : Word → Word) (rd rs1 : RegIdx) (imm : Word) (s : State) :
    ∃ t, load w ext rd rs1 imm s = .next t := by
  unfold load
  rcases memRead_cases s (s.ea rs1 imm) w with ⟨r, -, hr⟩ | ⟨-, -, hr⟩ | ⟨-, -, hr⟩ <;> rw [hr] <;> exact ⟨_, rfl⟩

/-- All a store can do when it answers a next state: run a routine that completes, write the bytes of its range, or
raise with at most `ALLOC` changed. -/
theorem store_next {w : Width} {rs1 rs2 : RegIdx} {imm : Word} {s t : State} (h : store w rs1 rs2 imm s = .next t) :
    (∃ r s', writeRoutineAt (s.reg rs1 + imm) = some r ∧ invoke r w (s.reg rs2) s = .done () s'
      ∧ t = s'.setPc (s.pc + 4))
    ∨ (plainWrite s (s.reg rs1 + imm).toNat (widthBytes w) = true
      ∧ t = State.setPc { s with mem := s.mem.writeBytes (s.reg rs1 + imm).toNat (s.reg rs2) (widthBytes w) } (s.pc + 4))
    ∨ (∃ l, (l = s.alloc ∨ s.reg rs1 + imm = 0x0834 ∧ ∃ op, l = allocAfterFailedFree op s.alloc)
      ∧ t = State.raise { s with alloc := l } .illegalOperation) := by
  unfold store at h
  rcases memWrite_cases s (s.ea rs1 imm) w (s.reg rs2) with ⟨r, ha, hr⟩ | ⟨-, hp, hr⟩ | ⟨-, -, hr⟩ <;> rw [hr] at h
  · cases hi : invoke r w (s.reg rs2) s with
    | done u s' =>
      rw [hi] at h; cases h
      have hpc := (invoke_done hi).2.1
      exact .inl ⟨r, s', ha, hi, by simp [State.nextPc, hpc]⟩
    | illegal s' =>
      rw [hi] at h; cases h
      obtain ⟨rfl, rfl⟩ := invoke_illegal hi
      have hx : s.reg rs1 + imm = 0x0834 := by
        have := writeRoutineAt_some ha; simpa [State.ea] using this
      exact .inr (.inr ⟨_, .inr ⟨hx, _, rfl⟩, rfl⟩)
    | refused e => rw [hi] at h; cases h
  · cases h; exact .inr (.inl ⟨hp, rfl⟩)
  · cases h; exact .inr (.inr ⟨_, .inl rfl, rfl⟩)

/-- A store is refused only by dump-memory-word, and never faults. -/
theorem store_refused {w : Width} {rs1 rs2 : RegIdx} {imm : Word} {s : State} {e : Refusal}
    (h : store w rs1 rs2 imm s = .refused e) :
    s.reg rs1 + imm = 0x0828 ∧ e = .dumpWordOutsideImage (devOperand w (s.reg rs2))
      ∧ inInstData (devOperand w (s.reg rs2)).toNat 4 = false := by
  unfold store at h
  rcases memWrite_cases s (s.ea rs1 imm) w (s.reg rs2) with ⟨r, ha, hr⟩ | ⟨-, hp, hr⟩ | ⟨-, -, hr⟩ <;> rw [hr] at h
  · cases hi : invoke r w (s.reg rs2) s with
    | done u s' => rw [hi] at h; cases h
    | illegal s' => rw [hi] at h; cases h
    | refused f =>
      rw [hi] at h; cases h
      obtain ⟨rfl, rfl, hd⟩ := invoke_refused hi
      have := writeRoutineAt_some ha
      exact ⟨by simpa [State.ea] using this, rfl, hd⟩
  · cases h
  · cases h

/-! ## The cycle -/

/-- All a step that answers a next state can do: nothing, when the run is over; else the unknown-instruction stop,
or the decoded instruction and the end of the cycle. -/
theorem step_next {s t : State} (h : step s = .next t) :
    (s.run = false ∧ t = s)
    ∨ (s.run = true ∧ s.err = .none ∧ s.pc.toNat < 1024
      ∧ ((∃ e, decode s.fetch = .error e) ∧ t = s.raise .unknownInstruction
        ∨ ∃ i u, decode s.fetch = .ok i ∧ exec i s = .next u ∧ t = endCycle u)) := by
  unfold step cycle at h
  split_ifs at h with h1 h2 h3
  · cases h; exact .inl ⟨h1, rfl⟩
  · refine .inr ⟨by simpa using h1, by simpa using h2, by simpa [Config.instSize] using h3, ?_⟩
    split at h
    · rename_i e he; cases h; exact .inl ⟨⟨e, he⟩, rfl⟩
    · rename_i i hi
      cases hx : exec i s with
      | next u => rw [hx] at h; cases h; exact .inr ⟨i, u, hi, hx, rfl⟩
      | fault f => rw [hx] at h; cases h
      | refused r => rw [hx] at h; cases h

end Sys2Proof.Machine
end

