-- ==== Sys2Proof/Laws/Exec.lean ====
section
/-! SUPPORT. The three shapes of an instruction's effect, and what the end of a cycle does. -/

namespace Sys2Proof.Machine

open Sys2Proof

/-- Every instruction is a register write with a move of the pc, a load, or a store. -/
theorem exec_shape (i : Instr) (s : State) :
    (isLoad i = false ∧ isStore i = false ∧ storeAddress s i = none
      ∧ ∃ rd v, exec i s = .next ((s.setReg rd v).setPc (nextPcOf s i)))
    ∨ (isLoad i = true ∧ storeAddress s i = none ∧ nextPcOf s i = s.pc + 4
      ∧ ∃ w ext rd rs1 imm, exec i s = load w ext rd rs1 imm s)
    ∨ (isStore i = true ∧ nextPcOf s i = s.pc + 4
      ∧ ∃ w rs1 rs2 imm, exec i s = store w rs1 rs2 imm s ∧ storeAddress s i = some (s.reg rs1 + imm)) := by
  have h0 (p : Word) : s.setPc p = (s.setReg 0 0).setPc p := rfl
  cases i
  case lb | lh | lw | lbu | lhu => exact .inr (.inl ⟨rfl, rfl, rfl, _, _, _, _, _, rfl⟩)
  case sb | sh | sw => exact .inr (.inr ⟨rfl, rfl, _, _, _, _, rfl, rfl⟩)
  case beq | bne | blt | bltu | bge | bgeu =>
    refine .inl ⟨rfl, rfl, rfl, 0, 0, ?_⟩
    simp [exec, execBeq, execBne, execBlt, execBltu, execBge, execBgeu, branch, nextPcOf, h0, eqw, lts, ltu, ges,
      geu, State.nextPc]
  all_goals exact .inl ⟨rfl, rfl, rfl, _, _, rfl⟩

/-- The end of a cycle leaves an error stop alone, raises when the pc is out of bounds, and else clears x[0]. -/
theorem endCycle_cases (t : State) :
    (t.err ≠ .none ∧ endCycle t = t)
    ∨ (t.err = .none ∧ 1024 ≤ t.pc.toNat ∧ endCycle t = t.clearX0.raise .pcOutOfBounds)
    ∨ (t.err = .none ∧ t.pc.toNat < 1024 ∧ endCycle t = t.clearX0) := by
  unfold endCycle Config.instSize
  split_ifs <;> simp_all

end Sys2Proof.Machine
end

