-- ==== Sys2Proof/Laws/Heap.lean ====
section
/-! SUPPORT. What each operation of the heap bank allocator can do, said once. -/

namespace Sys2Proof.Machine

open Sys2Proof

/-- Removing a node leaves the list alone or takes one node of that start out. -/
theorem removeNode_cases (k : Nat) (l : List Node) :
    removeNode k l = l ∨ ∃ nd ∈ l, nd.start = k ∧ removeNode k l = l.erase nd := by
  unfold removeNode
  induction l with
  | nil => simp
  | cons x xs ih =>
    by_cases h : x.start = k
    · exact .inr ⟨x, by simp, h, by simp [h]⟩
    · rcases ih with ih | ⟨nd, hm, hk, ih⟩
      · exact .inl (by simp [h, ih])
      · have : x ≠ nd := by rintro rfl; exact h hk
        exact .inr ⟨nd, by simp [hm], hk, by simp [h, ih, this]⟩

/-- Taking a node out keeps the form of the list. -/
theorem allocWf_erase {l : List Node} (h : allocWf l) (nd : Node) : allocWf (l.erase nd) :=
  ⟨h.1.sublist List.erase_sublist, fun n hn => h.2 n (List.mem_of_mem_erase hn)⟩

/-- The placement that `firstFit` finds: at or after `gap`, within the banks, one node more, and still sorted. -/
theorem firstFit_some {need gap k : Nat} {l l' : List Node} (h : firstFit need gap l = some (k, l'))
    (hs : l.Pairwise fun p q => p.stop ≤ q.start) (hl : ∀ n ∈ l, gap ≤ n.start ∧ n.stop ≤ Config.nBank) :
    gap ≤ k ∧ k + need ≤ Config.nBank ∧ l'.Perm (⟨k, need⟩ :: l) ∧ l'.Pairwise fun p q => p.stop ≤ q.start := by
  induction l generalizing gap l' with
  | nil =>
    unfold firstFit at h
    split at h <;> cases h
    exact ⟨le_rfl, ‹_›, .refl _, List.pairwise_singleton ..⟩
  | cons x xs ih =>
    have ⟨h1, h2⟩ := List.pairwise_cons.mp hs
    have hx := hl x (by simp)
    have hstop : x.start ≤ x.stop := Nat.le_add_right ..
    unfold firstFit at h
    split at h
    · rename_i hfit
      cases h
      refine ⟨le_rfl, by omega, .refl _, List.pairwise_cons.mpr ⟨fun nd hnd => ?_, hs⟩⟩
      rcases List.mem_cons.mp hnd with rfl | hnd
      · exact hfit
      · exact hfit.trans (hstop.trans (h1 nd hnd))
    · obtain ⟨⟨k', r⟩, hr, e⟩ := Option.map_eq_some_iff.mp h
      cases e
      have ⟨a, b, c, d⟩ := ih hr h2 fun n hn => ⟨h1 n hn, (hl n (by simp [hn])).2⟩
      refine ⟨by omega, b, (c.cons x).trans (.swap ..), List.pairwise_cons.mpr ⟨fun nd hnd => ?_, d⟩⟩
      rcases List.mem_cons.mp (c.mem_iff.mp hnd) with rfl | hnd
      · exact a
      · exact h1 nd hnd

end Sys2Proof.Machine
end

