-- ==== Sys2Proof/Laws/PerInstr.lean ====
section
/-! SUPPORT. Lemmas made per instruction, one per constructor of Instr. -/

namespace Sys2Proof.Laws.EncodeMatchesRow

open Sys2Proof

/-- The encoding of the instruction matches a row of the table, and that row builds the instruction back from it
when the instruction is well formed (R108, R110, R115). -/
def Statement (i : Instr) : Prop :=
  ∃ r ∈ table, r.hits (encode i) = true ∧ (i.wellFormed = true → r.build (encode i) = i)

theorem add (rd rs1 rs2 : RegIdx) : Statement (.add rd rs1 rs2) :=
  ⟨rowR 0x00000033 .add, List.getElem_mem (l := table) (n := 0) (by decide),
    (rowR_hits _ (by decide)).mpr (by simp [encode]; decide),
    fun _ => by simp [encode, rowR]⟩

theorem sub (rd rs1 rs2 : RegIdx) : Statement (.sub rd rs1 rs2) :=
  ⟨rowR 0x40000033 .sub, List.getElem_mem (l := table) (n := 1) (by decide),
    (rowR_hits _ (by decide)).mpr (by simp [encode]; decide),
    fun _ => by simp [encode, rowR]⟩

theorem xor (rd rs1 rs2 : RegIdx) : Statement (.xor rd rs1 rs2) :=
  ⟨rowR 0x00004033 .xor, List.getElem_mem (l := table) (n := 2) (by decide),
    (rowR_hits _ (by decide)).mpr (by simp [encode]; decide),
    fun _ => by simp [encode, rowR]⟩

theorem or (rd rs1 rs2 : RegIdx) : Statement (.or rd rs1 rs2) :=
  ⟨rowR 0x00006033 .or, List.getElem_mem (l := table) (n := 3) (by decide),
    (rowR_hits _ (by decide)).mpr (by simp [encode]; decide),
    fun _ => by simp [encode, rowR]⟩

theorem and (rd rs1 rs2 : RegIdx) : Statement (.and rd rs1 rs2) :=
  ⟨rowR 0x00007033 .and, List.getElem_mem (l := table) (n := 4) (by decide),
    (rowR_hits _ (by decide)).mpr (by simp [encode]; decide),
    fun _ => by simp [encode, rowR]⟩

theorem slt (rd rs1 rs2 : RegIdx) : Statement (.slt rd rs1 rs2) :=
  ⟨rowR 0x00002033 .slt, List.getElem_mem (l := table) (n := 5) (by decide),
    (rowR_hits _ (by decide)).mpr (by simp [encode]; decide),
    fun _ => by simp [encode, rowR]⟩

theorem sltu (rd rs1 rs2 : RegIdx) : Statement (.sltu rd rs1 rs2) :=
  ⟨rowR 0x00003033 .sltu, List.getElem_mem (l := table) (n := 6) (by decide),
    (rowR_hits _ (by decide)).mpr (by simp [encode]; decide),
    fun _ => by simp [encode, rowR]⟩

theorem addi (rd rs1 : RegIdx) (imm : Word) : Statement (.addi rd rs1 imm) :=
  ⟨rowI 0x00000013 .addi, List.getElem_mem (l := table) (n := 7) (by decide),
    (rowI_hits _ (by decide)).mpr (by simp [encode]; decide),
    fun h => by simp only [encode, rowI, Codec.immI_encodeI, signExtend_of_fits12 h]; simp⟩

theorem xori (rd rs1 : RegIdx) (imm : Word) : Statement (.xori rd rs1 imm) :=
  ⟨rowI 0x00004013 .xori, List.getElem_mem (l := table) (n := 8) (by decide),
    (rowI_hits _ (by decide)).mpr (by simp [encode]; decide),
    fun h => by simp only [encode, rowI, Codec.immI_encodeI, signExtend_of_fits12 h]; simp⟩

theorem ori (rd rs1 : RegIdx) (imm : Word) : Statement (.ori rd rs1 imm) :=
  ⟨rowI 0x00006013 .ori, List.getElem_mem (l := table) (n := 9) (by decide),
    (rowI_hits _ (by decide)).mpr (by simp [encode]; decide),
    fun h => by simp only [encode, rowI, Codec.immI_encodeI, signExtend_of_fits12 h]; simp⟩

theorem andi (rd rs1 : RegIdx) (imm : Word) : Statement (.andi rd rs1 imm) :=
  ⟨rowI 0x00007013 .andi, List.getElem_mem (l := table) (n := 10) (by decide),
    (rowI_hits _ (by decide)).mpr (by simp [encode]; decide),
    fun h => by simp only [encode, rowI, Codec.immI_encodeI, signExtend_of_fits12 h]; simp⟩

theorem slti (rd rs1 : RegIdx) (imm : Word) : Statement (.slti rd rs1 imm) :=
  ⟨rowI 0x00002013 .slti, List.getElem_mem (l := table) (n := 11) (by decide),
    (rowI_hits _ (by decide)).mpr (by simp [encode]; decide),
    fun h => by simp only [encode, rowI, Codec.immI_encodeI, signExtend_of_fits12 h]; simp⟩

theorem sltiu (rd rs1 : RegIdx) (imm : Word) : Statement (.sltiu rd rs1 imm) :=
  ⟨rowI 0x00003013 .sltiu, List.getElem_mem (l := table) (n := 12) (by decide),
    (rowI_hits _ (by decide)).mpr (by simp [encode]; decide),
    fun h => by simp only [encode, rowI, Codec.immI_encodeI, signExtend_of_fits12 h]; simp⟩

theorem lui (rd : RegIdx) (imm : Word) : Statement (.lui rd imm) :=
  ⟨rowU 0x00000037 .lui, List.getElem_mem (l := table) (n := 13) (by decide),
    (rowU_hits _ (by decide)).mpr (by simp [encode]; decide),
    fun h => by simp only [encode, rowU, Codec.immU_encodeU, append_of_fitsU h]; simp⟩

theorem sll (rd rs1 rs2 : RegIdx) : Statement (.sll rd rs1 rs2) :=
  ⟨rowR 0x00001033 .sll, List.getElem_mem (l := table) (n := 14) (by decide),
    (rowR_hits _ (by decide)).mpr (by simp [encode]; decide),
    fun _ => by simp [encode, rowR]⟩

theorem srl (rd rs1 rs2 : RegIdx) : Statement (.srl rd rs1 rs2) :=
  ⟨rowR 0x00005033 .srl, List.getElem_mem (l := table) (n := 15) (by decide),
    (rowR_hits _ (by decide)).mpr (by simp [encode]; decide),
    fun _ => by simp [encode, rowR]⟩

theorem sra (rd rs1 rs2 : RegIdx) : Statement (.sra rd rs1 rs2) :=
  ⟨rowR 0x40005033 .sra, List.getElem_mem (l := table) (n := 16) (by decide),
    (rowR_hits _ (by decide)).mpr (by simp [encode]; decide),
    fun _ => by simp [encode, rowR]⟩

theorem lb (rd rs1 : RegIdx) (imm : Word) : Statement (.lb rd rs1 imm) :=
  ⟨rowI 0x00000003 .lb, List.getElem_mem (l := table) (n := 17) (by decide),
    (rowI_hits _ (by decide)).mpr (by simp [encode]; decide),
    fun h => by simp only [encode, rowI, Codec.immI_encodeI, signExtend_of_fits12 h]; simp⟩

theorem lh (rd rs1 : RegIdx) (imm : Word) : Statement (.lh rd rs1 imm) :=
  ⟨rowI 0x00001003 .lh, List.getElem_mem (l := table) (n := 18) (by decide),
    (rowI_hits _ (by decide)).mpr (by simp [encode]; decide),
    fun h => by simp only [encode, rowI, Codec.immI_encodeI, signExtend_of_fits12 h]; simp⟩

theorem lw (rd rs1 : RegIdx) (imm : Word) : Statement (.lw rd rs1 imm) :=
  ⟨rowI 0x00002003 .lw, List.getElem_mem (l := table) (n := 19) (by decide),
    (rowI_hits _ (by decide)).mpr (by simp [encode]; decide),
    fun h => by simp only [encode, rowI, Codec.immI_encodeI, signExtend_of_fits12 h]; simp⟩

theorem lbu (rd rs1 : RegIdx) (imm : Word) : Statement (.lbu rd rs1 imm) :=
  ⟨rowI 0x00004003 .lbu, List.getElem_mem (l := table) (n := 20) (by decide),
    (rowI_hits _ (by decide)).mpr (by simp [encode]; decide),
    fun h => by simp only [encode, rowI, Codec.immI_encodeI, signExtend_of_fits12 h]; simp⟩

theorem lhu (rd rs1 : RegIdx) (imm : Word) : Statement (.lhu rd rs1 imm) :=
  ⟨rowI 0x00005003 .lhu, List.getElem_mem (l := table) (n := 21) (by decide),
    (rowI_hits _ (by decide)).mpr (by simp [encode]; decide),
    fun h => by simp only [encode, rowI, Codec.immI_encodeI, signExtend_of_fits12 h]; simp⟩

theorem sb (rs1 rs2 : RegIdx) (imm : Word) : Statement (.sb rs1 rs2 imm) :=
  ⟨rowS 0x00000023 .sb, List.getElem_mem (l := table) (n := 22) (by decide),
    (rowS_hits _ (by decide)).mpr (by simp [encode]; decide),
    fun h => by simp only [encode, rowS, Codec.immS_encodeS, signExtend_of_fits12 h]; simp⟩

theorem sh (rs1 rs2 : RegIdx) (imm : Word) : Statement (.sh rs1 rs2 imm) :=
  ⟨rowS 0x00001023 .sh, List.getElem_mem (l := table) (n := 23) (by decide),
    (rowS_hits _ (by decide)).mpr (by simp [encode]; decide),
    fun h => by simp only [encode, rowS, Codec.immS_encodeS, signExtend_of_fits12 h]; simp⟩

theorem sw (rs1 rs2 : RegIdx) (imm : Word) : Statement (.sw rs1 rs2 imm) :=
  ⟨rowS 0x00002023 .sw, List.getElem_mem (l := table) (n := 24) (by decide),
    (rowS_hits _ (by decide)).mpr (by simp [encode]; decide),
    fun h => by simp only [encode, rowS, Codec.immS_encodeS, signExtend_of_fits12 h]; simp⟩

theorem beq (rs1 rs2 : RegIdx) (imm : Word) : Statement (.beq rs1 rs2 imm) :=
  ⟨rowSB 0x00000063 .beq, List.getElem_mem (l := table) (n := 25) (by decide),
    (rowSB_hits _ (by decide)).mpr (by simp [encode]; decide),
    fun h => by simp only [encode, rowSB, Codec.immSB_encodeSB, signExtend_of_fitsSB h]; simp⟩

theorem bne (rs1 rs2 : RegIdx) (imm : Word) : Statement (.bne rs1 rs2 imm) :=
  ⟨rowSB 0x00001063 .bne, List.getElem_mem (l := table) (n := 26) (by decide),
    (rowSB_hits _ (by decide)).mpr (by simp [encode]; decide),
    fun h => by simp only [encode, rowSB, Codec.immSB_encodeSB, signExtend_of_fitsSB h]; simp⟩

theorem blt (rs1 rs2 : RegIdx) (imm : Word) : Statement (.blt rs1 rs2 imm) :=
  ⟨rowSB 0x00004063 .blt, List.getElem_mem (l := table) (n := 27) (by decide),
    (rowSB_hits _ (by decide)).mpr (by simp [encode]; decide),
    fun h => by simp only [encode, rowSB, Codec.immSB_encodeSB, signExtend_of_fitsSB h]; simp⟩

theorem bltu (rs1 rs2 : RegIdx) (imm : Word) : Statement (.bltu rs1 rs2 imm) :=
  ⟨rowSB 0x00006063 .bltu, List.getElem_mem (l := table) (n := 28) (by decide),
    (rowSB_hits _ (by decide)).mpr (by simp [encode]; decide),
    fun h => by simp only [encode, rowSB, Codec.immSB_encodeSB, signExtend_of_fitsSB h]; simp⟩

theorem bge (rs1 rs2 : RegIdx) (imm : Word) : Statement (.bge rs1 rs2 imm) :=
  ⟨rowSB 0x00005063 .bge, List.getElem_mem (l := table) (n := 29) (by decide),
    (rowSB_hits _ (by decide)).mpr (by simp [encode]; decide),
    fun h => by simp only [encode, rowSB, Codec.immSB_encodeSB, signExtend_of_fitsSB h]; simp⟩

theorem bgeu (rs1 rs2 : RegIdx) (imm : Word) : Statement (.bgeu rs1 rs2 imm) :=
  ⟨rowSB 0x00007063 .bgeu, List.getElem_mem (l := table) (n := 30) (by decide),
    (rowSB_hits _ (by decide)).mpr (by simp [encode]; decide),
    fun h => by simp only [encode, rowSB, Codec.immSB_encodeSB, signExtend_of_fitsSB h]; simp⟩

theorem jal (rd : RegIdx) (imm : Word) : Statement (.jal rd imm) :=
  ⟨rowUJ 0x0000006F .jal, List.getElem_mem (l := table) (n := 31) (by decide),
    (rowUJ_hits _ (by decide)).mpr (by simp [encode]; decide),
    fun h => by simp only [encode, rowUJ, Codec.immUJ_encodeUJ, signExtend_of_fitsUJ h]; simp⟩

theorem jalr (rd rs1 : RegIdx) (imm : Word) : Statement (.jalr rd rs1 imm) :=
  ⟨rowI 0x00000067 .jalr, List.getElem_mem (l := table) (n := 32) (by decide),
    (rowI_hits _ (by decide)).mpr (by simp [encode]; decide),
    fun h => by simp only [encode, rowI, Codec.immI_encodeI, signExtend_of_fits12 h]; simp⟩

end Sys2Proof.Laws.EncodeMatchesRow
end

