-- ==== Sys2Proof/Tests/Slice0.lean ====
section
/-! SUPPORT. Tests: the checks of WellFormed, one decoded word per instruction written out from the spec's fields,
at most two steps per instruction from the spec's vectors (95_test_vectors.md, named in each comment), and for every
obligation with hypotheses a state that meets them. -/

namespace Sys2Proof.Tests

open Sys2Proof Sys2Proof.Machine

/-! ## WellFormed: what the checks refuse (R102) -/

theorem test_wf_imm12_low : Instr.wellFormed (.addi 1 2 0xFFFFF7FF) = false := by decide
theorem test_wf_imm12_high : Instr.wellFormed (.lw 1 2 0x800) = false := by decide
theorem test_wf_imm12_store : Instr.wellFormed (.sw 1 2 0x12345) = false := by decide
theorem test_wf_immSB_low : Instr.wellFormed (.beq 1 2 0xFFFFEFFE) = false := by decide
theorem test_wf_immSB_high : Instr.wellFormed (.bne 1 2 0x1000) = false := by decide
theorem test_wf_immSB_odd : Instr.wellFormed (.blt 1 2 7) = false := by decide
theorem test_wf_immU : Instr.wellFormed (.lui 1 0x12345001) = false := by decide
theorem test_wf_immUJ_low : Instr.wellFormed (.jal 1 0xFFEFFFFE) = false := by decide
theorem test_wf_immUJ_high : Instr.wellFormed (.jal 1 0x100000) = false := by decide
theorem test_wf_immUJ_odd : Instr.wellFormed (.jal 1 3) = false := by decide

/-! ## Decoding: each word from the bits of its fields (R93, R110), with the word the spec writes for it -/

/-- D-1. -/
theorem test_decode_add :
    (0b0000000#7 ++ 0b11111#5 ++ 0b11111#5 ++ 0b000#3 ++ 0b11111#5 ++ 0b0110011#7 : Word) = 0x01FF8FB3
    ∧ decode 0x01FF8FB3 = .ok (.add 31 31 31) := by decide
/-- A-5. -/
theorem test_decode_sub :
    (0b0100000#7 ++ 0b00010#5 ++ 0b00001#5 ++ 0b000#3 ++ 0b00011#5 ++ 0b0110011#7 : Word) = 0x402081B3
    ∧ decode 0x402081B3 = .ok (.sub 3 1 2) := by decide
/-- D-6. -/
theorem test_decode_xor :
    (0b0000000#7 ++ 0b01010#5 ++ 0b01001#5 ++ 0b100#3 ++ 0b01000#5 ++ 0b0110011#7 : Word) = 0x00A4C433
    ∧ decode 0x00A4C433 = .ok (.xor 8 9 10) := by decide
/-- A-11. -/
theorem test_decode_or :
    (0b0000000#7 ++ 0b00010#5 ++ 0b00001#5 ++ 0b110#3 ++ 0b00011#5 ++ 0b0110011#7 : Word) = 0x0020E1B3
    ∧ decode 0x0020E1B3 = .ok (.or 3 1 2) := by decide
/-- A-12. -/
theorem test_decode_and :
    (0b0000000#7 ++ 0b00010#5 ++ 0b00001#5 ++ 0b111#3 ++ 0b00011#5 ++ 0b0110011#7 : Word) = 0x0020F1B3
    ∧ decode 0x0020F1B3 = .ok (.and 3 1 2) := by decide
/-- A-13. -/
theorem test_decode_slt :
    (0b0000000#7 ++ 0b00010#5 ++ 0b00001#5 ++ 0b010#3 ++ 0b00011#5 ++ 0b0110011#7 : Word) = 0x0020A1B3
    ∧ decode 0x0020A1B3 = .ok (.slt 3 1 2) := by decide
/-- D-4. -/
theorem test_decode_sltu :
    (0b0000000#7 ++ 0b01100#5 ++ 0b01011#5 ++ 0b011#3 ++ 0b01010#5 ++ 0b0110011#7 : Word) = 0x00C5B533
    ∧ decode 0x00C5B533 = .ok (.sltu 10 11 12) := by decide
/-- D-7. -/
theorem test_decode_addi :
    (0b100000000000#12 ++ 0b11111#5 ++ 0b000#3 ++ 0b11111#5 ++ 0b0010011#7 : Word) = 0x800F8F93
    ∧ decode 0x800F8F93 = .ok (.addi 31 31 0xFFFFF800) := by decide
/-- A-25. -/
theorem test_decode_xori :
    (0b111111111111#12 ++ 0b00010#5 ++ 0b100#3 ++ 0b00001#5 ++ 0b0010011#7 : Word) = 0xFFF14093
    ∧ decode 0xFFF14093 = .ok (.xori 1 2 0xFFFFFFFF) := by decide
/-- A-28. -/
theorem test_decode_ori :
    (0b000000001111#12 ++ 0b00010#5 ++ 0b110#3 ++ 0b00001#5 ++ 0b0010011#7 : Word) = 0x00F16093
    ∧ decode 0x00F16093 = .ok (.ori 1 2 0xF) := by decide
/-- D-12. -/
theorem test_decode_andi :
    (0b000011111111#12 ++ 0b01000#5 ++ 0b111#3 ++ 0b00111#5 ++ 0b0010011#7 : Word) = 0x0FF47393
    ∧ decode 0x0FF47393 = .ok (.andi 7 8 0xFF) := by decide
/-- A-35. -/
theorem test_decode_slti :
    (0b011111111111#12 ++ 0b00010#5 ++ 0b010#3 ++ 0b00001#5 ++ 0b0010011#7 : Word) = 0x7FF12093
    ∧ decode 0x7FF12093 = .ok (.slti 1 2 0x7FF) := by decide
/-- D-11. -/
theorem test_decode_sltiu :
    (0b111111111111#12 ++ 0b00110#5 ++ 0b011#3 ++ 0b00101#5 ++ 0b0010011#7 : Word) = 0xFFF33293
    ∧ decode 0xFFF33293 = .ok (.sltiu 5 6 0xFFFFFFFF) := by decide
/-- D-39. -/
theorem test_decode_lui :
    (0b00010010001101000101#20 ++ 0b00101#5 ++ 0b0110111#7 : Word) = 0x123452B7
    ∧ decode 0x123452B7 = .ok (.lui 5 0x12345000) := by decide
/-- D-5. -/
theorem test_decode_sll :
    (0b0000000#7 ++ 0b00111#5 ++ 0b00110#5 ++ 0b001#3 ++ 0b00101#5 ++ 0b0110011#7 : Word) = 0x007312B3
    ∧ decode 0x007312B3 = .ok (.sll 5 6 7) := by decide
/-- H-1. -/
theorem test_decode_srl :
    (0b0000000#7 ++ 0b00010#5 ++ 0b00001#5 ++ 0b101#3 ++ 0b00011#5 ++ 0b0110011#7 : Word) = 0x0020D1B3
    ∧ decode 0x0020D1B3 = .ok (.srl 3 1 2) := by decide
/-- D-3. -/
theorem test_decode_sra :
    (0b0100000#7 ++ 0b00011#5 ++ 0b00010#5 ++ 0b101#3 ++ 0b00001#5 ++ 0b0110011#7 : Word) = 0x403150B3
    ∧ decode 0x403150B3 = .ok (.sra 1 2 3) := by decide
/-- M-29. -/
theorem test_decode_lb :
    (0b111111111111#12 ++ 0b00010#5 ++ 0b000#3 ++ 0b00110#5 ++ 0b0000011#7 : Word) = 0xFFF10303
    ∧ decode 0xFFF10303 = .ok (.lb 6 2 0xFFFFFFFF) := by decide
/-- D-15. -/
theorem test_decode_lh :
    (0b111111111111#12 ++ 0b00010#5 ++ 0b001#3 ++ 0b00001#5 ++ 0b0000011#7 : Word) = 0xFFF11083
    ∧ decode 0xFFF11083 = .ok (.lh 1 2 0xFFFFFFFF) := by decide
/-- D-13. -/
theorem test_decode_lw :
    (0b100000000000#12 ++ 0b11111#5 ++ 0b010#3 ++ 0b11111#5 ++ 0b0000011#7 : Word) = 0x800FAF83
    ∧ decode 0x800FAF83 = .ok (.lw 31 31 0xFFFFF800) := by decide
/-- D-14. -/
theorem test_decode_lbu :
    (0b011111111111#12 ++ 0b01000#5 ++ 0b100#3 ++ 0b00111#5 ++ 0b0000011#7 : Word) = 0x7FF44383
    ∧ decode 0x7FF44383 = .ok (.lbu 7 8 0x7FF) := by decide
/-- M-5. -/
theorem test_decode_lhu :
    (0b000000000000#12 ++ 0b00010#5 ++ 0b101#3 ++ 0b00110#5 ++ 0b0000011#7 : Word) = 0x00015303
    ∧ decode 0x00015303 = .ok (.lhu 6 2 0x0) := by decide
/-- D-19. -/
theorem test_decode_sb :
    (0b1000000#7 ++ 0b11111#5 ++ 0b11111#5 ++ 0b000#3 ++ 0b00000#5 ++ 0b0100011#7 : Word) = 0x81FF8023
    ∧ decode 0x81FF8023 = .ok (.sb 31 31 0xFFFFF800) := by decide
/-- D-21. -/
theorem test_decode_sh :
    (0b1111111#7 ++ 0b01001#5 ++ 0b01010#5 ++ 0b001#3 ++ 0b11111#5 ++ 0b0100011#7 : Word) = 0xFE951FA3
    ∧ decode 0xFE951FA3 = .ok (.sh 10 9 0xFFFFFFFF) := by decide
/-- D-22. -/
theorem test_decode_sw :
    (0b0000001#7 ++ 0b00101#5 ++ 0b00110#5 ++ 0b010#3 ++ 0b00000#5 ++ 0b0100011#7 : Word) = 0x02532023
    ∧ decode 0x02532023 = .ok (.sw 6 5 0x20) := by decide
/-- D-25. -/
theorem test_decode_beq :
    (0b1#1 ++ 0b000000#6 ++ 0b00000#5 ++ 0b00000#5 ++ 0b000#3 ++ 0b0000#4 ++ 0b0#1 ++ 0b1100011#7 : Word) = 0x80000063
    ∧ decode 0x80000063 = .ok (.beq 0 0 0xFFFFF000) := by decide
/-- D-27. -/
theorem test_decode_bne :
    (0b0#1 ++ 0b000000#6 ++ 0b00010#5 ++ 0b00001#5 ++ 0b001#3 ++ 0b0000#4 ++ 0b1#1 ++ 0b1100011#7 : Word) = 0x002090E3
    ∧ decode 0x002090E3 = .ok (.bne 1 2 0x800) := by decide
/-- D-28. -/
theorem test_decode_blt :
    (0b1#1 ++ 0b000000#6 ++ 0b00010#5 ++ 0b00001#5 ++ 0b100#3 ++ 0b0000#4 ++ 0b1#1 ++ 0b1100011#7 : Word) = 0x8020C0E3
    ∧ decode 0x8020C0E3 = .ok (.blt 1 2 0xFFFFF800) := by decide
/-- D-31. -/
theorem test_decode_bltu :
    (0b1#1 ++ 0b111111#6 ++ 0b00100#5 ++ 0b00011#5 ++ 0b110#3 ++ 0b1111#4 ++ 0b1#1 ++ 0b1100011#7 : Word) = 0xFE41EFE3
    ∧ decode 0xFE41EFE3 = .ok (.bltu 3 4 0xFFFFFFFE) := by decide
/-- D-30. -/
theorem test_decode_bge :
    (0b0#1 ++ 0b100000#6 ++ 0b00010#5 ++ 0b00001#5 ++ 0b101#3 ++ 0b0000#4 ++ 0b0#1 ++ 0b1100011#7 : Word) = 0x4020D063
    ∧ decode 0x4020D063 = .ok (.bge 1 2 0x400) := by decide
/-- D-29. -/
theorem test_decode_bgeu :
    (0b0#1 ++ 0b000000#6 ++ 0b00010#5 ++ 0b00001#5 ++ 0b111#3 ++ 0b0001#4 ++ 0b0#1 ++ 0b1100011#7 : Word) = 0x0020F163
    ∧ decode 0x0020F163 = .ok (.bgeu 1 2 0x2) := by decide
/-- D-46. -/
theorem test_decode_jal :
    (0b0#1 ++ 0b0000000000#10 ++ 0b0#1 ++ 0b10000000#8 ++ 0b00001#5 ++ 0b1101111#7 : Word) = 0x000800EF
    ∧ decode 0x000800EF = .ok (.jal 1 0x80000) := by decide
/-- D-17. -/
theorem test_decode_jalr :
    (0b100000000000#12 ++ 0b11111#5 ++ 0b000#3 ++ 0b00001#5 ++ 0b1100111#7 : Word) = 0x800F80E7
    ∧ decode 0x800F80E7 = .ok (.jalr 1 31 0xFFFFF800) := by decide

/-- D-49 to D-51, D-54, D-55, D-62, D-65, D-67, D-69, D-72, D-73, D-82. -/
theorem test_decode_unknown :
    [0x00000000, 0xFFFFFFFF, 0x00001013, 0x02000033, 0x40001033, 0x00003003, 0x00003023, 0x00002063, 0x00001067,
      0x0000000F, 0x00000073, 0x00000036].all (fun w => decide (decode w = .error .unknownInstruction)) = true := by
  decide
/-- The word of `sw x0, -2036(x4)` (R116) as the opcode table numbers its bits. -/
theorem test_decodeTableWord : decodeTableWord 32 0x80022623 = some (.sw 4 0 0xFFFFF80C) := by decide

/-! ## One step per vector -/

/-- The bytes of the data segment of the M-series. -/
def mData : Memory :=
  [(0x400, 0x80), (0x401, 0xFF), (0x402, 0x7F), (0x403, 0x01), (0x404, 0x44), (0x405, 0x33), (0x406, 0x22),
    (0x407, 0x11)]

/-- The start state of a vector: the word at pc, some registers, and an allocation list. -/
def start (pc : Word) (word : Nat) (regs : List (RegIdx × Word)) (alloc : List Node := []) : State :=
  (regs.foldl (fun (s : State) p => s.setReg p.1 p.2) { State.reset with pc := pc, mem := mData, alloc := alloc }).withFetchWord
    32 word

/-- The outcome is a next state that passes the check. -/
def after (o : Result) (check : State → Bool) : Bool :=
  match o with
  | .next t => check t
  | .fault _ => false
  | .refused _ => false

theorem next_of {o : Result} (p : State → Prop) [DecidablePred p] (h : after o (fun t => decide (p t)) = true) :
    ∃ t, o = .next t ∧ p t := by
  cases o with
  | next t => exact ⟨t, rfl, of_decide_eq_true h⟩
  | fault f => cases h
  | refused r => cases h

/-- A-2. -/
theorem test_add_a2 :
    after (step (start 0x10 0x002081B3 [(1, 0xFFFFFFFF), (2, 0x1)])) (fun t =>
      t.reg 3 == 0x0 && t.pc == 0x14) = true := by decide
/-- A-42. -/
theorem test_add_a42 :
    after (step (start 0x10 0x00208033 [(1, 0x5), (2, 0x7)])) (fun t =>
      t.reg 0 == 0x0 && t.pc == 0x14) = true := by decide
/-- A-8. -/
theorem test_sub_a8 :
    after (step (start 0x10 0x402081B3 [(1, 0x7FFFFFFF), (2, 0xFFFFFFFF)])) (fun t =>
      t.reg 3 == 0x80000000 && t.pc == 0x14) = true := by decide
/-- A-44. -/
theorem test_sub_a44 :
    after (step (start 0x10 0x401000B3 [(1, 0x5)])) (fun t =>
      t.reg 1 == 0xFFFFFFFB && t.pc == 0x14) = true := by decide
/-- A-9. -/
theorem test_xor_a9 :
    after (step (start 0x10 0x0020C1B3 [(1, 0xFF00FF00), (2, 0xFF00FF0)])) (fun t =>
      t.reg 3 == 0xF0F0F0F0 && t.pc == 0x14) = true := by decide
/-- A-11. -/
theorem test_or_a11 :
    after (step (start 0x10 0x0020E1B3 [(1, 0xFF00FF00), (2, 0xFF00FF0)])) (fun t =>
      t.reg 3 == 0xFFF0FFF0 && t.pc == 0x14) = true := by decide
/-- A-12. -/
theorem test_and_a12 :
    after (step (start 0x10 0x0020F1B3 [(1, 0xFF00FF00), (2, 0xFF00FF0)])) (fun t =>
      t.reg 3 == 0xF000F00 && t.pc == 0x14) = true := by decide
/-- A-14. -/
theorem test_slt_a14 :
    after (step (start 0x10 0x0020A1B3 [(1, 0x1), (2, 0xFFFFFFFF)])) (fun t =>
      t.reg 3 == 0x0 && t.pc == 0x14) = true := by decide
/-- A-15. -/
theorem test_slt_a15 :
    after (step (start 0x10 0x0020A1B3 [(1, 0x80000000), (2, 0x7FFFFFFF)])) (fun t =>
      t.reg 3 == 0x1 && t.pc == 0x14) = true := by decide
/-- A-17. -/
theorem test_sltu_a17 :
    after (step (start 0x10 0x0020B1B3 [(1, 0xFFFFFFFF), (2, 0x1)])) (fun t =>
      t.reg 3 == 0x0 && t.pc == 0x14) = true := by decide
/-- A-18. -/
theorem test_sltu_a18 :
    after (step (start 0x10 0x0020B1B3 [(1, 0x1), (2, 0xFFFFFFFF)])) (fun t =>
      t.reg 3 == 0x1 && t.pc == 0x14) = true := by decide
/-- A-22. -/
theorem test_addi_a22 :
    after (step (start 0x10 0x7FF10093 [(2, 0x7FFFFFFF)])) (fun t =>
      t.reg 1 == 0x800007FE && t.pc == 0x14) = true := by decide
/-- A-24. -/
theorem test_addi_a24 :
    after (step (start 0x10 0x80010093 [(2, 0x800)])) (fun t =>
      t.reg 1 == 0x0 && t.pc == 0x14) = true := by decide
/-- A-25. -/
theorem test_xori_a25 :
    after (step (start 0x10 0xFFF14093 [(2, 0x12345678)])) (fun t =>
      t.reg 1 == 0xEDCBA987 && t.pc == 0x14) = true := by decide
/-- A-27. -/
theorem test_ori_a27 :
    after (step (start 0x10 0x80016093 [(2, 0x1)])) (fun t =>
      t.reg 1 == 0xFFFFF801 && t.pc == 0x14) = true := by decide
/-- A-29. -/
theorem test_andi_a29 :
    after (step (start 0x10 0xFF017093 [(2, 0x12345678)])) (fun t =>
      t.reg 1 == 0x12345670 && t.pc == 0x14) = true := by decide
/-- A-31. -/
theorem test_andi_a31 :
    after (step (start 0x10 0x7FF17093 [(2, 0xFFFFFFFF)])) (fun t =>
      t.reg 1 == 0x7FF && t.pc == 0x14) = true := by decide
/-- A-34. -/
theorem test_slti_a34 :
    after (step (start 0x10 0x80012093 [(2, 0x80000000)])) (fun t =>
      t.reg 1 == 0x1 && t.pc == 0x14) = true := by decide
/-- A-35. -/
theorem test_slti_a35 :
    after (step (start 0x10 0x7FF12093 [(2, 0x7FF)])) (fun t =>
      t.reg 1 == 0x0 && t.pc == 0x14) = true := by decide
/-- A-36. -/
theorem test_sltiu_a36 :
    after (step (start 0x10 0xFFF13093 [(2, 0x5)])) (fun t =>
      t.reg 1 == 0x1 && t.pc == 0x14) = true := by decide
/-- A-40. -/
theorem test_sltiu_a40 :
    after (step (start 0x10 0x80013093 [(2, 0xFFFFF7FF)])) (fun t =>
      t.reg 1 == 0x1 && t.pc == 0x14) = true := by decide
/-- A-48. -/
theorem test_lui_a48 :
    after (step (start 0x10 0x800002B7 [(5, 0xAAAAAAAA)])) (fun t =>
      t.reg 5 == 0x80000000 && t.pc == 0x14) = true := by decide
/-- A-51. -/
theorem test_lui_a51 :
    after (step (start 0x10 0xFFFFF037 [])) (fun t =>
      t.reg 0 == 0x0 && t.pc == 0x14) = true := by decide
/-- H-4. -/
theorem test_sll_h4 :
    after (step (start 0x10 0x002091B3 [(1, 0x80000001), (2, 0x1F)])) (fun t =>
      t.reg 3 == 0x80000000 && t.pc == 0x14) = true := by decide
/-- H-6. -/
theorem test_sll_h6 :
    after (step (start 0x10 0x002091B3 [(1, 0x80000001), (2, 0x21)])) (fun t =>
      t.reg 3 == 0x00000000 && t.pc == 0x14) = true := by decide
/-- H-11. -/
theorem test_srl_h11 :
    after (step (start 0x10 0x0020D1B3 [(1, 0xFFFFFFF8), (2, 0x1)])) (fun t =>
      t.reg 3 == 0x7FFFFFFC && t.pc == 0x14) = true := by decide
/-- H-9. -/
theorem test_srl_h9 :
    after (step (start 0x10 0x0020D1B3 [(1, 0x80000001), (2, 0xFFFFFFFF)])) (fun t =>
      t.reg 3 == 0x00000000 && t.pc == 0x14) = true := by decide
/-- H-11. -/
theorem test_sra_h11 :
    after (step (start 0x10 0x4020D1B3 [(1, 0xFFFFFFF8), (2, 0x1)])) (fun t =>
      t.reg 3 == 0xFFFFFFFC && t.pc == 0x14) = true := by decide
/-- H-14. -/
theorem test_sra_h14 :
    after (step (start 0x10 0x4020D1B3 [(1, 0x12345678), (2, 0x24)])) (fun t =>
      t.reg 3 == 0x01234567 && t.pc == 0x14) = true := by decide
/-- M-1. -/
theorem test_lb_m1 :
    after (step (start 0x10 0x00010303 [(2, 0x400), (6, 0x66666666), (7, 0x12345678)])) (fun t =>
      t.reg 6 == 0xFFFFFF80 && t.pc == 0x14) = true := by decide
/-- M-28. -/
theorem test_lb_m28 :
    after (step (start 0x10 0x00010303 [(2, 0x8FF), (6, 0x66666666), (7, 0x12345678)])) (fun t =>
      t.err == .illegalOperation && !t.run && t.pc == 0x10 && t.reg 6 == 0x66666666) = true := by decide
/-- M-6. -/
theorem test_lh_m6 :
    after (step (start 0x10 0x00111303 [(2, 0x400), (6, 0x66666666), (7, 0x12345678)])) (fun t =>
      t.reg 6 == 0x00007FFF && t.pc == 0x14) = true := by decide
/-- M-13. -/
theorem test_lh_m13 :
    after (step (start 0x10 0x00011303 [(2, 0x7FF), (6, 0x66666666), (7, 0x12345678)])) (fun t =>
      t.err == .illegalOperation && !t.run && t.pc == 0x10 && t.reg 6 == 0x66666666) = true := by decide
/-- M-10. -/
theorem test_lw_m10 :
    after (step (start 0x10 0x00112303 [(2, 0x400), (6, 0x66666666), (7, 0x12345678)])) (fun t =>
      t.reg 6 == 0x44017FFF && t.pc == 0x14) = true := by decide
/-- M-17. -/
theorem test_lw_m17 :
    after (step (start 0x10 0x00012303 [(2, 0x3FE), (6, 0x66666666), (7, 0x12345678)])) (fun t =>
      t.reg 6 == 0xFF800000 && t.pc == 0x14) = true := by decide
/-- M-2. -/
theorem test_lbu_m2 :
    after (step (start 0x10 0x00014303 [(2, 0x400), (6, 0x66666666), (7, 0x12345678)])) (fun t =>
      t.reg 6 == 0x00000080 && t.pc == 0x14) = true := by decide
/-- M-66. -/
theorem test_lbu_m66 :
    after (step (start 0x10 0x00014303 [(2, 0xB780), (6, 0x66666666), (7, 0x12345678)] [⟨1, 1⟩])) (fun t =>
      t.err == .illegalOperation && !t.run && t.pc == 0x10 && t.reg 6 == 0x66666666) = true := by decide
/-- M-5. -/
theorem test_lhu_m5 :
    after (step (start 0x10 0x00015303 [(2, 0x400), (6, 0x66666666), (7, 0x12345678)])) (fun t =>
      t.reg 6 == 0x0000FF80 && t.pc == 0x14) = true := by decide
/-- M-30. -/
theorem test_sb_m30 :
    after (step (start 0x10 0x00710023 [(2, 0x400), (6, 0x66666666), (7, 0x12345678)])) (fun t =>
      t.mem.byteAt 0x400 == 0x78 && t.mem.byteAt 0x401 == 0xFF && t.mem.byteAt 0x402 == 0x7F
      && t.mem.byteAt 0x403 == 0x01 && t.mem.byteAt 0x404 == 0x44 && t.mem.byteAt 0x405 == 0x33) = true := by decide
/-- M-38. -/
theorem test_sb_m38 :
    after (step (start 0x10 0x00710023 [(2, 0x3FF), (6, 0x66666666), (7, 0x12345678)])) (fun t =>
      t.err == .illegalOperation && !t.run && t.pc == 0x10 && t.reg 6 == 0x66666666) = true := by decide
/-- M-31. -/
theorem test_sh_m31 :
    after (step (start 0x10 0x00711023 [(2, 0x400), (6, 0x66666666), (7, 0x12345678)])) (fun t =>
      t.mem.byteAt 0x400 == 0x78 && t.mem.byteAt 0x401 == 0x56 && t.mem.byteAt 0x402 == 0x7F
      && t.mem.byteAt 0x403 == 0x01 && t.mem.byteAt 0x404 == 0x44 && t.mem.byteAt 0x405 == 0x33) = true := by decide
/-- M-36. -/
theorem test_sh_m36 :
    after (step (start 0x10 0x00711023 [(2, 0x7FF), (6, 0x66666666), (7, 0x12345678)])) (fun t =>
      t.err == .illegalOperation && !t.run && t.pc == 0x10 && t.reg 6 == 0x66666666) = true := by decide
/-- M-57. -/
theorem test_sw_m57 :
    after (step (start 0x10 0x00712023 [(2, 0xB73E), (6, 0x66666666), (7, 0x12345678)] [⟨0, 1⟩, ⟨1, 1⟩])) (fun t =>
      t.mem.byteAt 0xB73E == 0x78 && t.mem.byteAt 0xB73F == 0x56 && t.mem.byteAt 0xB740 == 0x34
      && t.mem.byteAt 0xB741 == 0x12) = true := by decide
/-- M-46. -/
theorem test_sw_m46 :
    after (step (start 0x10 0x00712023 [(2, 0x80A), (6, 0x66666666), (7, 0x12345678)])) (fun t =>
      t.err == .illegalOperation && !t.run && t.pc == 0x10 && t.reg 6 == 0x66666666) = true := by decide
/-- B-1. -/
theorem test_beq_b1 :
    after (step (start 0x10 0x00208463 [(1, 0x5), (2, 0x5)])) (fun t =>
      t.pc == 0x00000018 && t.err == .none) = true := by decide
/-- B-31. -/
theorem test_beq_b31 :
    after (step (start 0x8 0xFE0008E3 [])) (fun t =>
      t.pc == 0xFFFFFFF8 && t.err == .pcOutOfBounds) = true := by decide
/-- B-3. -/
theorem test_bne_b3 :
    after (step (start 0x100 0x00419463 [(3, 0xFFFFFFFF), (4, 0x1)])) (fun t =>
      t.pc == 0x00000108 && t.err == .none) = true := by decide
/-- B-33. -/
theorem test_bne_b33 :
    after (step (start 0x10 0x80001063 [])) (fun t =>
      t.pc == 0x00000014 && t.err == .none) = true := by decide
/-- B-5. -/
theorem test_blt_b5 :
    after (step (start 0x100 0x0041C463 [(3, 0xFFFFFFFF), (4, 0x1)])) (fun t =>
      t.pc == 0x00000108 && t.err == .none) = true := by decide
/-- B-14. -/
theorem test_blt_b14 :
    after (step (start 0x100 0xFE41CEE3 [(3, 0x5), (4, 0x5)])) (fun t =>
      t.pc == 0x00000104 && t.err == .none) = true := by decide
/-- B-7. -/
theorem test_bltu_b7 :
    after (step (start 0x100 0x0041E463 [(3, 0xFFFFFFFF), (4, 0x1)])) (fun t =>
      t.pc == 0x00000104 && t.err == .none) = true := by decide
/-- B-8. -/
theorem test_bltu_b8 :
    after (step (start 0x100 0x0041E463 [(3, 0x1), (4, 0xFFFFFFFF)])) (fun t =>
      t.pc == 0x00000108 && t.err == .none) = true := by decide
/-- B-13. -/
theorem test_bge_b13 :
    after (step (start 0x100 0xFE41DEE3 [(3, 0x5), (4, 0x5)])) (fun t =>
      t.pc == 0x000000FC && t.err == .none) = true := by decide
/-- B-9. -/
theorem test_bge_b9 :
    after (step (start 0x100 0x0041D463 [(3, 0xFFFFFFFF), (4, 0x1)])) (fun t =>
      t.pc == 0x00000104 && t.err == .none) = true := by decide
/-- B-11. -/
theorem test_bgeu_b11 :
    after (step (start 0x100 0x0041F463 [(3, 0xFFFFFFFF), (4, 0x1)])) (fun t =>
      t.pc == 0x00000108 && t.err == .none) = true := by decide
/-- B-12. -/
theorem test_bgeu_b12 :
    after (step (start 0x100 0x0041F463 [(3, 0x1), (4, 0xFFFFFFFF)])) (fun t =>
      t.pc == 0x00000104 && t.err == .none) = true := by decide
/-- B-16. -/
theorem test_jal_b16 :
    after (step (start 0x20 0xFE1FF0EF [])) (fun t =>
      t.pc == 0x00000000 && t.reg 1 == 0x24 && t.err == .none) = true := by decide
/-- B-22. -/
theorem test_jal_b22 :
    after (step (start 0x20 0xFDDFF0EF [])) (fun t =>
      t.pc == 0xFFFFFFFC && t.reg 1 == 0x24 && t.err == .pcOutOfBounds) = true := by decide
/-- B-25. -/
theorem test_jalr_b25 :
    after (step (start 0x20 0x001280E7 [(5, 0x40)])) (fun t =>
      t.pc == 0x00000041 && t.reg 1 == 0x24 && t.err == .none) = true := by decide
/-- B-26. -/
theorem test_jalr_b26 :
    after (step (start 0x20 0x004282E7 [(5, 0x40)])) (fun t =>
      t.pc == 0x00000044 && t.reg 5 == 0x24 && t.err == .none) = true := by decide

/-! ## Witnesses: for every obligation with hypotheses, a concrete state and operands that meet them, at the ends of
each clause's range -/

theorem running_start : Running (start 0x10 0x002081B3 [(1, 5), (2, 7)]) := ⟨by decide, by decide, by decide⟩

theorem witness_SignExtensionRule :
    (1 ≤ 1 ∧ 1 ≤ 32 ∧ (1 : Word).toNat < 2 ^ 1) ∧ (1 ≤ 12 ∧ 12 ≤ 32 ∧ (0xFFF : Word).toNat < 2 ^ 12)
    ∧ (1 ≤ 32 ∧ 32 ≤ 32 ∧ (0xFFFFFFFF : Word).toNat < 2 ^ 32) := by decide

theorem witness_DecodeEncodeRoundTrip :
    [Instr.addi 1 2 0xFFFFF800, .addi 1 2 0x7FF, .sw 1 2 0xFFFFF800, .sw 1 2 0x7FF, .beq 1 2 0xFFFFF000,
      .beq 1 2 0xFFE, .lui 1 0xFFFFF000, .jal 1 0xFFF00000, .jal 1 0xFFFFE, .add 31 31 31].all
        (fun i => i.wellFormed) = true := by decide

theorem witness_EncodeDecodeRoundTrip : decode 0xFFFFFFEF = .ok (.jal 31 0xFFFFFFFE) := by decide

theorem witness_DecodeBytesOfEncoding :
    Instr.wellFormed (.lw 6 2 8) = true ∧ ([] : List Byte).length < 4 ∧ ([1, 2, 3] : List Byte).length < 4 := by decide

theorem witness_X0ZeroAfterCycle_running :
    Running (start 0x10 0x00208033 [(1, 5), (2, 7)])
    ∧ ∃ t, step (start 0x10 0x00208033 [(1, 5), (2, 7)]) = .next t ∧ t.err = .none :=
  ⟨⟨by decide, by decide, by decide⟩, next_of _ (by decide)⟩

theorem witness_X0ZeroAfterCycle_out_of_bounds :
    Running (start 0x20 0x001000EF []) ∧ ∃ t, step (start 0x20 0x001000EF []) = .next t ∧ t.err = .pcOutOfBounds :=
  ⟨⟨by decide, by decide, by decide⟩, next_of _ (by decide)⟩

theorem witness_LuiResult : decode 0xFFFFF2B7 = .ok (.lui 5 0xFFFFF000) := by decide

/-- The amounts at the ends of each clause: -2^31, -1, 0, 31, 32, 2^31 - 1. -/
theorem witness_ShiftResults :
    let n := fun a : Word => ((start 0x10 0 [(2, a)]).reg 2).toInt
    n 0x80000000 < 0 ∧ n 0xFFFFFFFF < 0 ∧ 0 ≤ n 0 ∧ n 0 < 32 ∧ 0 ≤ n 31 ∧ n 31 < 32 ∧ 32 ≤ n 32
      ∧ 32 ≤ n 0x7FFFFFFF := by decide

/-- Every byte of bank 127 is allocated when that bank is a node. -/
theorem heapOk_last : HeapOk [⟨127, 1⟩] 0xD6FC 4 :=
  ⟨by decide, by decide, fun b _ _ => ⟨⟨127, 1⟩, by simp, by simp; omega, by simp; omega⟩⟩

/-- The last byte, half and word of the data segment, and the last word of an allocated heap. -/
theorem witness_LoadsOfReadableRanges :
    Readable (start 0x10 0 [(2, 0x7FF)]) ((start 0x10 0 [(2, 0x7FF)]).reg 2 + 0).toNat 1
    ∧ Readable (start 0x10 0 [(2, 0x7FE)]) ((start 0x10 0 [(2, 0x7FE)]).reg 2 + 0).toNat 2
    ∧ Readable (start 0x10 0 [(2, 0x7FC)]) ((start 0x10 0 [(2, 0x7FC)]).reg 2 + 0).toNat 4
    ∧ Readable (start 0x10 0 [(2, 0xD6FC)] [⟨127, 1⟩]) ((start 0x10 0 [(2, 0xD6FC)] [⟨127, 1⟩]).reg 2 + 0).toNat 4 :=
  ⟨.inl (by decide), .inl (by decide), .inl (by decide), .inr heapOk_last⟩

theorem witness_LoadsFromConsole_char :
    let s := start 0x10 0 [(2, 0x812)]
    s.reg 2 + 0 = 0x0812 ∧ Config.consoleChar (readCount s.out) = Config.consoleChar (readCount s.out)
      ∧ Event.inChar (Config.consoleChar 0) = .inChar (Config.consoleChar (readCount s.out)) :=
  ⟨by decide, rfl, rfl⟩

theorem witness_LoadsFromConsole_int :
    let s := start 0x10 0 [(2, 0x800)]
    s.reg 2 + 0x16 = 0x0816 ∧ Event.inInt (Config.consoleInt 0) = .inInt (Config.consoleInt (readCount s.out)) :=
  ⟨by decide, rfl⟩

/-- A half that ends one byte past the data segment, a word at a write routine, and an unallocated heap byte. -/
theorem witness_LoadsElsewhereRaise :
    (¬ Readable (start 0x10 0 []) 0x7FF 2 ∧ ¬ IsReadRoutine 0x7FF)
    ∧ (¬ Readable (start 0x10 0 []) 0x800 4 ∧ ¬ IsReadRoutine 0x800)
    ∧ (¬ Readable (start 0x10 0 []) 0xB700 1 ∧ ¬ IsReadRoutine 0xB700) := by
  refine ⟨⟨?_, by unfold IsReadRoutine; decide⟩, ⟨?_, by unfold IsReadRoutine; decide⟩,
    ⟨?_, by unfold IsReadRoutine; decide⟩⟩
  · rintro (h | ⟨h, -, -⟩) <;> revert h <;> decide
  · rintro (h | ⟨h, -, -⟩) <;> revert h <;> decide
  · rintro (h | ⟨-, -, h⟩)
    · revert h; decide
    · obtain ⟨nd, h, -⟩ := h 0xB700 (by decide) (by decide); revert h; exact List.not_mem_nil

/-- The first byte and the last word of the data segment, and the last word of an allocated heap. -/
theorem witness_StoresToWritableRanges :
    let s := start 0x10 0 [(2, 0x400), (3, 0x7FC), (4, 0xD6FC)] [⟨127, 1⟩]
    s.mem.wf ∧ IsStoreOf (.sb 2 7 0) 1 2 7 0 ∧ Writable s (s.reg 2 + 0).toNat 1
      ∧ IsStoreOf (.sw 3 7 0) 4 3 7 0 ∧ Writable s (s.reg 3 + 0).toNat 4
      ∧ IsStoreOf (.sw 4 7 0) 4 4 7 0 ∧ Writable s (s.reg 4 + 0).toNat 4 :=
  ⟨by decide, .inl ⟨rfl, rfl⟩, .inl (by decide), .inr (.inr ⟨rfl, rfl⟩), .inl (by decide), .inr (.inr ⟨rfl, rfl⟩),
    .inr heapOk_last⟩

/-- The last byte of the instruction segment, a word that ends past the data segment, and a read routine. -/
theorem witness_StoresElsewhereRaise :
    let s := start 0x10 0 [(2, 0x3FF), (3, 0x7FD), (4, 0x812)]
    (IsStoreOf (.sb 2 7 0) 1 2 7 0 ∧ ¬ Writable s (s.reg 2 + 0).toNat 1 ∧ ¬ IsWriteRoutine (s.reg 2 + 0).toNat)
    ∧ (IsStoreOf (.sw 3 7 0) 4 3 7 0 ∧ ¬ Writable s (s.reg 3 + 0).toNat 4 ∧ ¬ IsWriteRoutine (s.reg 3 + 0).toNat)
    ∧ (IsStoreOf (.sh 4 7 0) 2 4 7 0 ∧ ¬ Writable s (s.reg 4 + 0).toNat 2 ∧ ¬ IsWriteRoutine (s.reg 4 + 0).toNat) := by
  refine ⟨⟨.inl ⟨rfl, rfl⟩, ?_, by unfold IsWriteRoutine; decide⟩,
    ⟨.inr (.inr ⟨rfl, rfl⟩), ?_, by unfold IsWriteRoutine; decide⟩,
    ⟨.inr (.inl ⟨rfl, rfl⟩), ?_, by unfold IsWriteRoutine; decide⟩⟩ <;>
  · rintro (h | ⟨h, -, -⟩) <;> revert h <;> decide

/-- The three output routines, each reached by another width. -/
theorem witness_OutputRoutines :
    let s := start 0x10 0 [(2, 0x800)]
    (IsStoreOf (.sb 2 7 0) 1 2 7 0 ∧ s.reg 2 + 0 = 0x0800) ∧ (IsStoreOf (.sh 2 7 4) 2 2 7 4 ∧ s.reg 2 + 4 = 0x0804)
    ∧ (IsStoreOf (.sw 2 7 8) 4 2 7 8 ∧ s.reg 2 + 8 = 0x0808) :=
  ⟨⟨.inl ⟨rfl, rfl⟩, by decide⟩, ⟨.inr (.inl ⟨rfl, rfl⟩), by decide⟩, ⟨.inr (.inr ⟨rfl, rfl⟩), by decide⟩⟩

/-- V-1. -/
theorem test_routine_char_out :
    after (step (start 0x10 0x00712023 [(2, 0x800), (7, 0x141)])) (fun t =>
      t.out == [.outChar 0x41] && t.pc == 0x14) = true := by decide

/-- A halting byte store, and the halting word store in the last slot that passes the pc check and in the first that
does not. -/
theorem witness_HaltRoutine :
    (IsStoreOf (.sb 2 0 12) 1 2 0 12 ∧ (start 0x10 0 [(2, 0x800)]).reg 2 + 12 = 0x080C)
    ∧ (let s := start 0x3FB 0x80022623 [(4, 0x1000)];
      IsStoreOf (.sw 4 0 0xFFFFF80C) 4 4 0 0xFFFFF80C ∧ s.reg 4 + 0xFFFFF80C = 0x080C ∧ Running s
      ∧ decode s.fetch = .ok (.sw 4 0 0xFFFFF80C) ∧ s.pc.toNat + 4 < 1024)
    ∧ (let s := start 0x3FC 0x80022623 [(4, 0x1000)];
      s.reg 4 + 0xFFFFF80C = 0x080C ∧ Running s ∧ decode s.fetch = .ok (.sw 4 0 0xFFFFF80C)
      ∧ 1024 ≤ s.pc.toNat + 4) :=
  ⟨⟨.inl ⟨rfl, rfl⟩, by decide⟩,
    ⟨.inr (.inr ⟨rfl, rfl⟩), by decide, ⟨by decide, by decide, by decide⟩, by decide, by decide⟩,
    ⟨by decide, ⟨by decide, by decide, by decide⟩, by decide, by decide⟩⟩

/-- V-6. -/
theorem test_routine_halt :
    after (step (start 0x10 0x00712023 [(2, 0x80C), (7, 0x12345678)])) (fun t =>
      !t.run && t.err == .none && t.pc == 0x14 && t.out == []) = true := by decide

theorem witness_DumpRoutines :
    let s := start 0x10 0 [(2, 0x800)]
    IsStoreOf (.sh 2 0 0x20) 2 2 0 0x20 ∧ s.reg 2 + 0x20 = 0x0820
      ∧ IsStoreOf (.sw 2 0 0x24) 4 2 0 0x24 ∧ s.reg 2 + 0x24 = 0x0824 :=
  ⟨.inr (.inl ⟨rfl, rfl⟩), by decide, .inr (.inr ⟨rfl, rfl⟩), by decide⟩

/-- The last address the routine reads, and the first it is refused for. -/
theorem witness_DumpWordRoutine :
    let s := start 0x10 0 [(2, 0x828), (7, 0x7FC), (8, 0x7FD)]
    IsStoreOf (.sw 2 7 0) 4 2 7 0 ∧ s.reg 2 + 0 = 0x0828 ∧ (s.reg 7).toNat + 4 ≤ 0x0800
      ∧ 0x0800 < (s.reg 8).toNat + 4 :=
  ⟨.inr (.inr ⟨rfl, rfl⟩), by decide, by decide, by decide⟩

/-- V-9. -/
theorem test_routine_dump_word :
    after (step (start 0x10 0x00712023 [(2, 0x828), (7, 0x400)])) (fun t =>
      t.out == [.dumpWord 0x400 0x017FFF80] && t.pc == 0x14) = true := by decide

theorem witness_AllocRoutine :
    IsStoreOf (.sw 2 7 0) 4 2 7 0 ∧ (start 0x10 0 [(2, 0x830)]).reg 2 + 0 = 0x0830 :=
  ⟨.inr (.inr ⟨rfl, rfl⟩), by decide⟩

/-- V-42. -/
theorem test_routine_alloc :
    after (step (start 0x10 0x00712023 [(2, 0x830), (7, 128), (28, 0xDEAD)] [⟨0, 1⟩, ⟨3, 1⟩])) (fun t =>
      t.reg 28 == 0xB740 && t.alloc == [⟨0, 1⟩, ⟨1, 2⟩, ⟨3, 1⟩] && t.pc == 0x14) = true := by decide

/-- Both clauses: an address that is freed and one that raises. -/
theorem witness_FreeRoutine :
    let s := start 0x10 0 [(2, 0x834), (7, 0xB780)] [⟨0, 2⟩, ⟨2, 1⟩]
    IsStoreOf (.sw 2 7 0) 4 2 7 0 ∧ s.reg 2 + 0 = 0x0834 ∧ free? (s.reg 7) s.alloc = some [⟨0, 2⟩]
      ∧ free? 0xB740 s.alloc = none :=
  ⟨.inr (.inr ⟨rfl, rfl⟩), by decide, by decide, by decide⟩

/-- V-57. -/
theorem test_routine_free_raises :
    after (step (start 0x10 0x00712023 [(2, 0x834), (7, 0xB740), (28, 0xDEAD)] [⟨0, 2⟩])) (fun t =>
      t.err == .illegalOperation && !t.run && t.pc == 0x10 && t.reg 28 == 0xDEAD) = true := by decide

/-- An instruction that raises nothing and one that raises, from states without an error. -/
theorem witness_NextPcTable :
    (start 0x10 0 [(1, 5), (2, 5)]).err = .none
    ∧ (∃ t, exec (.beq 1 2 8) (start 0x10 0 [(1, 5), (2, 5)]) = .next t ∧ t.err = .none)
    ∧ (∃ t, exec (.lw 6 2 0) (start 0x10 0 [(2, 0x900)]) = .next t ∧ t.err = .illegalOperation)
    ∧ Running (start 0x3FC 0 []) ∧ decode (start 0x3FC 0 []).fetch = .error .unknownInstruction
    ∧ ∃ t, step (start 0x3FC 0 []) = .next t ∧ t.err = .unknownInstruction :=
  ⟨by decide, next_of _ (by decide), next_of _ (by decide), ⟨by decide, by decide, by decide⟩, by decide,
    next_of _ (by decide)⟩

/-- The word at the pc decodes, and states at both sides of the pc bound and with an error. -/
theorem witness_StepRunsDecoded :
    let s := start 0x10 0x002081B3 [(1, 5), (2, 7)]
    Running s
    ∧ decode (s.mem.byteAt (s.pc.toNat + 3) ++ s.mem.byteAt (s.pc.toNat + 2) ++ s.mem.byteAt (s.pc.toNat + 1)
        ++ s.mem.byteAt s.pc.toNat) = .ok (.add 3 1 2)
    ∧ (start 0x3FF 0 []).err = .none ∧ (start 0x3FF 0 []).pc.toNat < 1024
    ∧ 1024 ≤ ({ start 0x10 0 [] with pc := 0x400 } : State).pc.toNat
    ∧ ((start 0x10 0 []).raise .illegalOperation).err ≠ .none :=
  ⟨running_start, by decide, by decide, by decide, by decide, by decide⟩

/-- E-1, and an unknown word in the last slot (E-2, E-10). -/
theorem witness_UnknownInstructionStops :
    (Running (start 0x10 0x00001013 [(1, 7)])
      ∧ decode (start 0x10 0x00001013 [(1, 7)]).fetch = .error .unknownInstruction)
    ∧ Running (start 0x3FC 0 []) ∧ decode (start 0x3FC 0 []).fetch = .error .unknownInstruction :=
  ⟨⟨⟨by decide, by decide, by decide⟩, by decide⟩, ⟨by decide, by decide, by decide⟩, by decide⟩

/-- A jump to 1024 (B-20) and a halting store in the last slot (E-7). -/
theorem witness_PcOutOfBoundsStops :
    (let s := start 0x20 0x3E0000EF [];
      Running s ∧ decode s.fetch = .ok (.jal 1 992)
      ∧ ∃ t, exec (.jal 1 992) s = .next t ∧ t.err = .none ∧ 1024 ≤ t.pc.toNat)
    ∧ (let s := start 0x3FC 0x80022623 [(4, 0x1000)];
      Running s ∧ decode s.fetch = .ok (.sw 4 0 0xFFFFF80C)
      ∧ ∃ t, exec (.sw 4 0 0xFFFFF80C) s = .next t ∧ t.err = .none ∧ 1024 ≤ t.pc.toNat) :=
  ⟨⟨⟨by decide, by decide, by decide⟩, by decide, next_of _ (by decide)⟩,
    ⟨⟨by decide, by decide, by decide⟩, by decide, next_of _ (by decide)⟩⟩

/-- A jump to 1020, the last slot (B-19). -/
theorem witness_PcInBoundsContinues :
    let s := start 0x20 0x3DC000EF []
    Running s ∧ decode s.fetch = .ok (.jal 1 988)
      ∧ ∃ t, exec (.jal 1 988) s = .next t ∧ t.err = .none ∧ t.pc.toNat < 1024 :=
  ⟨⟨by decide, by decide, by decide⟩, by decide, next_of _ (by decide)⟩

theorem witness_StoppedMachineStays : ((start 0x10 0 []).raise .unknownInstruction).run = false := by decide

/-- A load and a store that raise. -/
theorem witness_OnlyLoadsAndStoresRaise :
    (start 0x10 0 [(2, 0x900)]).err = .none
    ∧ (∃ t, exec (.lw 6 2 0) (start 0x10 0 [(2, 0x900)]) = .next t ∧ t.err ≠ .none)
    ∧ ∃ t, exec (.sh 2 7 0) (start 0x10 0 [(2, 0x7FF)]) = .next t ∧ t.err ≠ .none :=
  ⟨by decide, next_of _ (by decide), next_of _ (by decide)⟩

/-- A load that raises, and a store to VR_FREE that raises. -/
theorem witness_ErrorsArePrecise :
    (start 0x10 0 [(2, 0x900)]).err = .none
    ∧ (∃ t, exec (.lb 0 2 0) (start 0x10 0 [(2, 0x900)]) = .next t ∧ t.err ≠ .none)
    ∧ ∃ t, exec (.sw 2 7 0) (start 0x10 0 [(2, 0x834), (7, 0xB740)] [⟨0, 2⟩]) = .next t ∧ t.err ≠ .none :=
  ⟨by decide, next_of _ (by decide), next_of _ (by decide)⟩

/-- A step that keeps running, and one that raises. -/
theorem witness_StatusIsMonotone :
    (∃ t, step (start 0x10 0x002081B3 [(1, 5), (2, 7)]) = .next t ∧ t.run = true)
    ∧ ∃ t, step (start 0x10 0x00001013 []) = .next t ∧ t.err ≠ (start 0x10 0x00001013 []).err :=
  ⟨next_of _ (by decide), next_of _ (by decide)⟩

theorem inv_start : Inv (start 0x10 0x00712023 [(2, 0x828), (7, 0x7FD)] [⟨0, 2⟩, ⟨127, 1⟩]) :=
  ⟨by decide, by decide, by decide, by decide, by decide⟩

/-- A state that meets the invariant and whose step is refused. -/
theorem witness_OnlyDumpWordIsRefused :
    Inv (start 0x10 0x00712023 [(2, 0x828), (7, 0x7FD)] [⟨0, 2⟩, ⟨127, 1⟩])
    ∧ step (start 0x10 0x00712023 [(2, 0x828), (7, 0x7FD)] [⟨0, 2⟩, ⟨127, 1⟩])
      = .refused (.dumpWordOutsideImage 0x7FD) :=
  ⟨inv_start, by rfl⟩

/-- A clean halt and an error stop. -/
theorem witness_TwoKindsOfEnd :
    (let s := start 0x10 0x80022623 [(4, 0x1000)];
      Inv s ∧ s.run = true ∧ ∃ t, step s = .next t ∧ t.run = false)
    ∧ (let s := start 0x10 0x00001013 [];
      Inv s ∧ s.run = true ∧ ∃ t, step s = .next t ∧ t.run = false) :=
  ⟨⟨⟨by decide, by decide, by decide, by decide, by decide⟩, by decide, next_of _ (by decide)⟩,
    ⟨⟨by decide, by decide, by decide, by decide, by decide⟩, by decide, next_of _ (by decide)⟩⟩

theorem witness_MemoryReadAfterWrite :
    mData.wf ∧ isStorage 0 = true ∧ isStorage 0x7FF = true ∧ isStorage 0xB700 = true ∧ isStorage 0xD6FF = true
      ∧ isStorage 0x800 = false ∧ isStorage 0xB6FF = false ∧ isStorage 0xD700 = false := by decide

/-- A store to the first word of the data segment: the byte below it is the last of the instruction segment. -/
theorem witness_InstructionSegmentUnchanged :
    (start 0x10 0x00712023 [(2, 0x400), (7, 0xFF)]).mem.wf
    ∧ (∃ t, step (start 0x10 0x00712023 [(2, 0x400), (7, 0xFF)]) = .next t ∧ t.mem.byteAt 0x400 = 0xFF) ∧ 1023 < 1024 :=
  ⟨by decide, next_of _ (by decide), by decide⟩

theorem witness_AllocChangedByRoutinesOnly :
    (let s := start 0x10 0 [(2, 0x830), (7, 1)];
      ∃ t, exec (.sw 2 7 0) s = .next t ∧ t.alloc ≠ s.alloc)
    ∧ (let s := start 0x10 0 [(2, 0x834), (7, 0xB700)] [⟨0, 1⟩];
      ∃ t, exec (.sw 2 7 0) s = .next t ∧ t.alloc ≠ s.alloc) :=
  ⟨next_of _ (by decide), next_of _ (by decide)⟩

/-- Sizes at the ends of each clause, a list with a free run and a full one. -/
theorem witness_AllocateIsFirstFit :
    allocWf [⟨1, 1⟩] ∧ allocWf [⟨0, 128⟩] ∧ (0 : Int) ≤ 0 ∧ (8192 : Int) < 8193
    ∧ ((0 : Int) < 1 ∧ (1 : Int) ≤ 8192 ∧ 64 * (((1 : Nat) : Int) - 1) < 1 ∧ (1 : Int) ≤ 64 * ((1 : Nat) : Int))
    ∧ ((8192 : Int) ≤ 8192 ∧ 64 * (((128 : Nat) : Int) - 1) < 8192 ∧ (8192 : Int) ≤ 64 * ((128 : Nat) : Int))
    ∧ (∃ g, FreeBanks [⟨1, 1⟩] g 1) ∧ ¬ ∃ g, FreeBanks [⟨0, 128⟩] g 1 := by
  refine ⟨by decide, by decide, by decide, by decide, by decide, by decide, ⟨0, by decide, by decide⟩, ?_⟩
  rintro ⟨g, h1, h2⟩
  have := h2 ⟨0, 128⟩ (by simp)
  simp at this
  omega

/-- The first byte of a block, and an address that starts none. -/
theorem witness_FreeRemovesExactBlock :
    allocWf [⟨0, 2⟩, ⟨127, 1⟩] ∧ (⟨127, 1⟩ : Node) ∈ [(⟨0, 2⟩ : Node), ⟨127, 1⟩]
    ∧ (0xD6C0 : Word).toNat = 0xB700 + 64 * (⟨127, 1⟩ : Node).start
    ∧ (0xB740 : Word) ≠ 0 ∧ ∀ nd ∈ [(⟨0, 2⟩ : Node), ⟨127, 1⟩], (0xB740 : Word).toNat ≠ 0xB700 + 64 * nd.start := by
  decide

theorem witness_FreeUndoesAllocate : allocWf [⟨0, 1⟩, ⟨3, 1⟩] ∧ (allocate 128 [⟨0, 1⟩, ⟨3, 1⟩]).1 ≠ 0 := by decide

theorem witness_AllocatedBlockIsFresh : allocWf [⟨0, 127⟩] ∧ (allocate 64 [⟨0, 127⟩]).1 ≠ 0 := by decide

/-- The fullest list in the number of nodes has its form (E-9). -/
theorem witness_AllocHasAtMost128Nodes : allocWf ((List.range 128).map fun k => ⟨k, 1⟩) := by
  refine ⟨?_, ?_⟩
  · rw [List.pairwise_map]
    exact List.pairwise_lt_range.imp fun h => h
  · intro n hn
    obtain ⟨k, hk, rfl⟩ := List.mem_map.mp hn
    exact ⟨Nat.le_refl 1, List.mem_range.mp hk⟩

/-- An image whose first word is `addi x1, x0, 5` (P1), all else 0. -/
def image : List Byte := [0x93, 0x00, 0x50, 0x00] ++ List.replicate 2044 0

theorem image_length : image.length = 2048 := by
  rw [image, List.length_append, List.length_replicate]; rfl

theorem witness_ResetLoadsImage : image.length = 2048 ∧ ([] : List Byte).length ≠ 2048 :=
  ⟨image_length, by decide⟩

/-- Storing what an unlisted address holds, above every listed address, changes nothing. -/
theorem put_unlisted {m : Memory} {a : Nat} {b : Byte} (hb : unlistedByte a = some b) (hm : ∀ c ∈ m, c.1 < a) :
    Memory.put a b m = m := by
  induction m with
  | nil => simp [Memory.put, hb]
  | cons p rest ih =>
    have hp := hm p (by simp)
    unfold Memory.put
    rw [if_neg (by omega), if_neg (by omega), ih fun c hc => hm c (by simp [hc])]

theorem load_zeros {m : Memory} {a : Nat} (n : Nat) (hn : a + n ≤ 0x800) (hm : ∀ c ∈ m, c.1 < a) :
    m.load a (List.replicate n 0) = m := by
  induction n generalizing a with
  | zero => rfl
  | succ n ih =>
    have h : m.setByte a 0 = m := by
      unfold Memory.setByte
      split
      · exact put_unlisted (if_neg (by simp only [Config.heapBase]; omega)) hm
      · rfl
    rw [List.replicate_succ, Memory.load, h, ih (by omega) fun c hc => (hm c hc).trans (by omega)]

/-- The image's first instruction runs. -/
theorem witness_RunsFromAnyImage :
    ∃ s t, State.resetWithImage image = some s ∧ Host.Core.run Sys2Proof.core 1 s = .next t ∧ t.run = true := by
  have hm : Memory.load [] 0 image = [(0, 0x93), (2, 0x50)] := by
    rw [image, List.cons_append, List.cons_append, List.cons_append, List.cons_append, List.nil_append, Memory.load,
      Memory.load, Memory.load, Memory.load, load_zeros 2044 (by decide) (by decide)]
    decide
  obtain ⟨t, h⟩ := next_of (o := Host.Core.run Sys2Proof.core 1 { State.reset with mem := [(0, 0x93), (2, 0x50)] })
    (fun t => t.run = true ∧ t.reg 1 = 5) (by decide)
  exact ⟨_, t, by rw [State.resetWithImage, if_pos (by exact image_length), hm], h.1, h.2.1⟩

theorem witness_StepKeepsInvariant :
    Inv (start 0x10 0x00712023 [(2, 0xB73E), (7, 0x12345678)] [⟨0, 1⟩, ⟨1, 1⟩])
    ∧ ∃ t, step (start 0x10 0x00712023 [(2, 0xB73E), (7, 0x12345678)] [⟨0, 1⟩, ⟨1, 1⟩]) = .next t ∧ t.run = true :=
  ⟨⟨by decide, by decide, by decide, by decide, by decide⟩, next_of _ (by decide)⟩

/-- Both premises: no error and no diagnostic, and one of each. -/
theorem witness_OneDiagnosticPerError :
    (let s := start 0x10 0x00001013 [];
      s.out.countP Event.isDiag = (if s.err = .none then 0 else 1) ∧ ∃ t, step s = .next t ∧ t.err ≠ .none)
    ∧ (let s := (start 0x10 0 []).raise .unknownInstruction;
      s.out.countP Event.isDiag = (if s.err = .none then 0 else 1) ∧ ∃ t, step s = .next t ∧ t.err ≠ .none) :=
  ⟨⟨by decide, next_of _ (by decide)⟩, ⟨by decide, next_of _ (by decide)⟩⟩

theorem witness_PlacedWordRuns :
    Running (start 0x3FF 0 []) ∧ (start 0x3FF 0 []).mem.wf ∧ decodeTableWord 32 0x002081B3 = some (.add 3 1 2) :=
  ⟨⟨by decide, by decide, by decide⟩, by decide, by decide⟩


end Sys2Proof.Tests
end

-- Reading a register after a write (10_state.md section 1, rules R20 to R22).
section
namespace Sys2Proof.Machine

open Sys2Proof

/-- A write to index 0 is discarded (R22), the storage of x[0] included. -/
@[simp] theorem State.setReg_zero (s : State) (v : Word) : s.setReg 0#5 v = s := rfl

/-- A read of a register other than x[0] is the storage cell of its index. -/
theorem State.reg_of_ne_zero (s : State) {i : RegIdx} (hi : i ≠ 0) : s.reg i = s.x[i.toNat]'i.isLt :=
  if_neg hi

/-- A write to a register other than x[0] sets the storage cell of its index. -/
theorem State.setReg_x_of_ne_zero (s : State) {i : RegIdx} (v : Word) (hi : i ≠ 0) :
    (s.setReg i v).x = s.x.set i.toNat v i.isLt := by
  rw [State.setReg, if_neg hi]

theorem State.reg_setReg_same (s : State) {i : RegIdx} (v : Word) (hi : i ≠ 0) : (s.setReg i v).reg i = v := by
  simp [State.reg_of_ne_zero _ hi, State.setReg_x_of_ne_zero s v hi]

theorem State.reg_setReg_of_ne (s : State) {i j : RegIdx} (v : Word) (hji : j ≠ i) :
    (s.setReg i v).reg j = s.reg j := by
  by_cases hi : i = 0
  · rw [hi]; rfl
  · by_cases hj : j = 0
    · rw [hj]; rfl
    · have hcell : i.toNat ≠ j.toNat := fun e => hji (BitVec.eq_of_toNat_eq e.symm)
      simp [State.reg_of_ne_zero _ hj, State.setReg_x_of_ne_zero s v hi, hcell]

/-- Read after write over all pairs of registers, a write to x[0] included (R20 to R22). -/
theorem State.reg_setReg (s : State) (i j : RegIdx) (v : Word) :
    (s.setReg i v).reg j = if j = i ∧ i ≠ 0 then v else s.reg j := by
  split
  next h =>
    obtain ⟨rfl, hj⟩ := h
    exact s.reg_setReg_same v hj
  next h =>
    by_cases hji : j = i
    · have hi : i = 0 := not_not.mp fun hi => h ⟨hji, hi⟩
      rw [hi]; rfl
    · exact s.reg_setReg_of_ne v hji

/-- Settles O9: read after write by whether the two indices agree and whether the written one is 0; the rest of the
state by the frame lemmas of `State.setReg`. -/
theorem registerReadAfterWrite : Obligations.RegisterReadAfterWrite := by
  intro s i j v
  exact ⟨s.reg_zero, s.reg_setReg i j v, s.setReg_zero v, s.setReg_pc i v, s.setReg_mem i v, s.setReg_run i v,
    s.setReg_err i v, s.setReg_alloc i v, s.setReg_out i v⟩

end Sys2Proof.Machine
end

-- The allocation list keeps its form (20_memory.md section 6, rules R75 to R78).
section
namespace Sys2Proof.Machine

open Sys2Proof

/-- A positive size needs at least one bank (R77). -/
theorem banksNeeded_pos {size : Int} (h : 0 < size) : 1 ≤ banksNeeded size := by
  unfold banksNeeded Config.bankSize
  omega

theorem allocWf_firstFit {need k : Nat} {l l' : List Node} (hl : allocWf l) (hneed : 1 ≤ need)
    (h : firstFit need 0 l = some (k, l')) : allocWf l' := by
  obtain ⟨hsorted, hnodes⟩ := hl
  obtain ⟨-, hfits, hperm, hsorted'⟩ :=
    firstFit_some h hsorted fun n hn => ⟨Nat.zero_le _, (hnodes n hn).2⟩
  refine ⟨hsorted', fun n hn => ?_⟩
  rcases List.mem_cons.mp (hperm.mem_iff.mp hn) with rfl | hold
  · exact ⟨hneed, hfits⟩
  · exact hnodes n hold

theorem allocWf_allocate {l : List Node} (size : Int) (hl : allocWf l) : allocWf (allocate size l).2 := by
  unfold allocate
  split
  next => exact hl
  next hsize =>
    split
    next g l' hfit => exact allocWf_firstFit hl (banksNeeded_pos (by omega)) hfit
    next => exact hl

theorem allocWf_removeNode {l : List Node} (k : Nat) (hl : allocWf l) : allocWf (removeNode k l) := by
  rcases removeNode_cases k l with h | ⟨nd, -, -, h⟩ <;> rw [h]
  · exact hl
  · exact allocWf_erase hl nd

theorem allocWf_free? {a : Word} {l l' : List Node} (hl : allocWf l) (h : free? a l = some l') : allocWf l' := by
  unfold free? at h
  split_ifs at h <;> cases h
  · exact hl
  · exact allocWf_removeNode _ hl

theorem allocWf_allocAfterFailedFree {l : List Node} (a : Word) (hl : allocWf l) :
    allocWf (allocAfterFailedFree a l) := by
  unfold allocAfterFailedFree
  split
  · exact allocWf_removeNode _ hl
  · exact hl

/-- A routine that completes keeps the form of the list: only heap-allocate and heap-free touch it. -/
theorem invoke_done_allocWf {r : WriteRoutine} {w : Width} {v : Word} {s t : State} (hs : allocWf s.alloc)
    (h : invoke r w v s = .done () t) : allocWf t.alloc := by
  obtain ⟨-, -, -, -, -, -, hother, -⟩ := invoke_done h
  cases r
  case heapAlloc =>
    cases h
    rw [State.setReg_alloc]
    exact allocWf_allocate _ hs
  case heapFree =>
    simp only [invoke, heapFree] at h
    split at h <;> cases h
    next hfree => exact allocWf_free? hs hfree
  all_goals
    rw [hother (by decide) (by decide)]
    exact hs

end Sys2Proof.Machine
end

-- What a byte reads as after a store and after the load of an image (R28, R44, R241).
section
namespace Sys2Proof.Machine

open Sys2Proof

/-- Every address of the two image segments holds storage (R28). -/
theorem isStorage_of_lt_dataEnd {a : Nat} (h : a < Config.dataEnd) : isStorage a = true := by
  simp [isStorage, h]

/-- A store changes the storage bytes of its range, each to the byte of the value at its offset. -/
theorem Memory.byteAt_writeBytes {m : Memory} (a : Nat) (v : Word) (n : Nat) (hm : m.wf) (c : Nat) :
    (m.writeBytes a v n).byteAt c
      = if a ≤ c ∧ c < a + n ∧ isStorage c = true then byteOf v (c - a) else m.byteAt c := by
  induction n with
  | zero => rw [if_neg (by omega)]; rfl
  | succ n ih =>
    rw [Memory.writeBytes, Memory.byteAt_setByte _ _ (Memory.writeBytes_wf a v n hm), ih]
    by_cases hc : c = a + n
    · subst hc
      simp
    · have hrange : c < a + n ↔ c < a + (n + 1) := by omega
      simp [hc, hrange]

/-- Loading bytes from address `a` on, all of it within the image segments, changes the bytes of that range. -/
theorem Memory.byteAt_load {m : Memory} (a : Nat) (bs : List Byte) (hm : m.wf) (hfit : a + bs.length ≤ Config.dataEnd)
    (c : Nat) :
    (m.load a bs).byteAt c = if h : a ≤ c ∧ c < a + bs.length then bs[c - a]'(by omega) else m.byteAt c := by
  induction bs generalizing m a with
  | nil => rw [dif_neg (by simp)]; rfl
  | cons b bs ih =>
    rw [List.length_cons] at hfit
    have hstorage : isStorage a = true := isStorage_of_lt_dataEnd (by omega)
    rw [Memory.load, ih (a + 1) (Memory.setByte_wf a b hm) (by omega), Memory.byteAt_setByte a b hm]
    rcases Nat.lt_trichotomy c a with hlt | rfl | hgt
    · rw [dif_neg (by omega), if_neg (by omega), dif_neg (by omega)]
    · simp [hstorage]
    · by_cases hend : c < a + (bs.length + 1)
      · rw [dif_pos (by omega), dif_pos (by simp; omega)]
        have hoff : c - a = (c - (a + 1)) + 1 := by omega
        simp [hoff]
      · rw [dif_neg (by omega), if_neg (by omega), dif_neg (by simp; omega)]

/-- The bytes of a value, low address first, make the value again (R44). -/
theorem wordOfBytes_byteOf (v : Word) : wordOfBytes (byteOf v 0) (byteOf v 1) (byteOf v 2) (byteOf v 3) = v := by
  apply BitVec.eq_of_getLsbD_eq
  intro k hk
  simp only [wordOfBytes, byteOf, BitVec.getLsbD_append, BitVec.getLsbD_extractLsb']
  interval_cases k <;> simp

/-- A word stored within the image segments reads back. -/
theorem Memory.readBytes_writeBytes_word {m : Memory} {a : Nat} (v : Word) (hm : m.wf)
    (hfit : a + 4 ≤ Config.dataEnd) : (m.writeBytes a v 4).readBytes a .word = v := by
  have hbyte (k : Nat) (hk : k < 4) : (m.writeBytes a v 4).byteAt (a + k) = byteOf v k := by
    have hstorage : isStorage (a + k) = true := isStorage_of_lt_dataEnd (by omega)
    rw [Memory.byteAt_writeBytes a v 4 hm, if_pos ⟨by omega, by omega, hstorage⟩, Nat.add_sub_cancel_left]
  calc (m.writeBytes a v 4).readBytes a .word
      = wordOfBytes (byteOf v 0) (byteOf v 1) (byteOf v 2) (byteOf v 3) := by
        rw [← hbyte 0 (by decide), ← hbyte 1 (by decide), ← hbyte 2 (by decide), ← hbyte 3 (by decide)]
        rfl
    _ = v := wordOfBytes_byteOf v

end Sys2Proof.Machine
end

-- What an instruction that answers a next state has done, as one case analysis (R30 step 4).
section
namespace Sys2Proof.Machine

open Sys2Proof

/-- The effects an instruction can have. Every one of them moves the pc by the table of R33 except the error entry. -/
inductive Effect (i : Instr) (s : State) : State → Prop
  /-- `x[rd] <- v` and nothing else: every instruction but loads and stores, and a plain load -/
  | writesReg (rd : RegIdx) (v : Word) : Effect i s ((s.setReg rd v).setPc (nextPcOf s i))
  /-- a load from a read routine (R66, R67) -/
  | readsConsole (e : Event) (rd : RegIdx) (v : Word) : Effect i s (((s.emit e).setReg rd v).setPc (nextPcOf s i))
  /-- a store to a write routine that completes (R60 to R72) -/
  | callsRoutine {a v : Word} {r : WriteRoutine} {w : Width} {s' : State} (haddr : storeAddress s i = some a)
      (hroutine : writeRoutineAt a = some r) (hdone : invoke r w v s = .done () s') :
      Effect i s (s'.setPc (nextPcOf s i))
  /-- a plain store (R49) -/
  | writesMem {a v : Word} {w : Width} (hplain : plainWrite s a.toNat (widthBytes w) = true) :
      Effect i s (State.setPc { s with mem := s.mem.writeBytes a.toNat v (widthBytes w) } (nextPcOf s i))
  /-- the error entry of a load or store that is not permitted; only a failing free may have changed `ALLOC` (R218) -/
  | raises {l : List Node}
      (hlist : l = s.alloc ∨ storeAddress s i = some 0x0834 ∧ ∃ op, l = allocAfterFailedFree op s.alloc) :
      Effect i s (State.raise { s with alloc := l } .illegalOperation)

theorem exec_effect {i : Instr} {s t : State} (h : exec i s = .next t) : Effect i s t := by
  rcases exec_shape i s with ⟨-, -, -, rd, v, hx⟩ | ⟨-, -, hpc, w, ext, rd, rs1, imm, hx⟩
    | ⟨-, hpc, w, rs1, rs2, imm, hx, haddr⟩ <;> rw [hx] at h
  case inl =>
    cases h
    exact .writesReg rd v
  case inr.inl =>
    rcases load_next h with ⟨v, s', rfl | ⟨e, -, rfl⟩, rfl⟩ | rfl
    · simpa [State.nextPc, hpc] using Effect.writesReg (i := i) (s := s') rd v
    · simpa [State.nextPc, hpc] using Effect.readsConsole (i := i) (s := s) e rd v
    · exact .raises (.inl rfl)
  case inr.inr =>
    rcases store_next h with ⟨r, s', hroutine, hdone, rfl⟩ | ⟨hplain, rfl⟩ | ⟨l, hlist, rfl⟩
    · rw [← hpc]
      exact .callsRoutine haddr hroutine hdone
    · rw [← hpc]
      exact .writesMem hplain
    · exact .raises (hlist.imp_right fun ⟨ha, hop⟩ => ⟨haddr.trans (congrArg some ha), hop⟩)

/-- The status and the pc after an instruction: without an error the pc follows the table of R33 and only a store to
VR_HALT clears the run flag; an error is `IllegalOperation` and leaves the pc (R26, R33, R217). -/
theorem exec_status {i : Instr} {s t : State} (h : exec i s = .next t) :
    (t.err = s.err ∧ t.pc = nextPcOf s i ∧ (t.run = s.run ∨ storeAddress s i = some 0x080C))
    ∨ (t.err = .illegalOperation ∧ t.pc = s.pc ∧ t.run = false) := by
  cases exec_effect h with
  | writesReg | readsConsole | writesMem => simp
  | @callsRoutine a v r w s' haddr hroutine hdone =>
    obtain ⟨-, -, herr, -, hrun, -⟩ := invoke_done hdone
    refine .inl ⟨herr, rfl, ?_⟩
    by_cases hhalt : r = .halt
    · subst hhalt
      have ha : a = 0x080C := by simpa using writeRoutineAt_some hroutine
      exact .inr (ha ▸ haddr)
    · exact .inl (hrun hhalt)
  | raises => simp

theorem exec_out {i : Instr} {s t : State} (h : exec i s = .next t) : ∃ es, t.out = s.out ++ es := by
  cases exec_effect h with
  | writesReg | writesMem => exact ⟨[], by simp⟩
  | readsConsole e => exact ⟨[e], by simp⟩
  | callsRoutine _ _ hdone =>
    obtain ⟨-, -, -, -, -, -, -, -, -, hsame | ⟨e, -, hout⟩⟩ := invoke_done hdone
    · exact ⟨[], by simpa using hsame⟩
    · exact ⟨[e], hout⟩
  | raises => exact ⟨_, State.raise_out _ _⟩

/-- No instruction writes the storage of x[0]. -/
theorem exec_x0 {i : Instr} {s t : State} (h : exec i s = .next t) : t.x[0] = s.x[0] := by
  cases exec_effect h with
  | writesReg rd v => exact State.setReg_x0 s rd v
  | readsConsole e rd v => exact State.setReg_x0 (s.emit e) rd v
  | callsRoutine _ _ hdone =>
    obtain ⟨-, -, -, hx0, -⟩ := invoke_done hdone
    exact hx0
  | writesMem | raises => rfl

/-- An instruction leaves the memory or makes one plain store. -/
theorem exec_mem {i : Instr} {s t : State} (h : exec i s = .next t) :
    t.mem = s.mem ∨ ∃ (a v : Word) (w : Width), plainWrite s a.toNat (widthBytes w) = true
      ∧ t.mem = s.mem.writeBytes a.toNat v (widthBytes w) := by
  cases exec_effect h with
  | writesReg | readsConsole | raises => simp
  | callsRoutine _ _ hdone =>
    obtain ⟨hmem, -⟩ := invoke_done hdone
    exact .inl hmem
  | writesMem hplain => exact .inr ⟨_, _, _, hplain, rfl⟩

theorem exec_mem_wf {i : Instr} {s t : State} (hs : s.mem.wf) (h : exec i s = .next t) : t.mem.wf := by
  rcases exec_mem h with hmem | ⟨a, v, w, -, hmem⟩ <;> rw [hmem]
  · exact hs
  · exact Memory.writeBytes_wf _ _ _ hs

/-- A plain store does not begin in the instruction segment (R49). -/
theorem le_of_plainWrite {s : State} {a n : Nat} (h : plainWrite s a n = true) : 1024 ≤ a := by
  simp only [plainWrite, inData, inHeap, Bool.or_eq_true, Bool.and_eq_true, decide_eq_true_eq] at h
  rcases h with ⟨hdata, -⟩ | ⟨⟨hheap, -⟩, -⟩
  · exact hdata
  · exact le_trans (by decide) hheap

theorem exec_instruction_segment {i : Instr} {s t : State} (hs : s.mem.wf) (h : exec i s = .next t) {b : Nat}
    (hb : b < 1024) : t.mem.byteAt b = s.mem.byteAt b := by
  rcases exec_mem h with hmem | ⟨a, v, w, hplain, hmem⟩ <;> rw [hmem]
  have ha := le_of_plainWrite hplain
  rw [Memory.byteAt_writeBytes _ _ _ hs, if_neg (by omega)]

theorem exec_allocWf {i : Instr} {s t : State} (hs : allocWf s.alloc) (h : exec i s = .next t) : allocWf t.alloc := by
  cases exec_effect h with
  | writesReg | readsConsole => simpa using hs
  | callsRoutine _ _ hdone =>
    have hl := invoke_done_allocWf hs hdone
    exact hl
  | writesMem => exact hs
  | raises hlist =>
    rcases hlist with rfl | ⟨-, op, rfl⟩
    · exact hs
    · exact allocWf_allocAfterFailedFree op hs

/-- An instruction that changes `ALLOC` is a store to one of the two heap routines (R29). -/
theorem exec_alloc {i : Instr} {s t : State} (h : exec i s = .next t) :
    t.alloc = s.alloc ∨ storeAddress s i = some 0x0830 ∨ storeAddress s i = some 0x0834 := by
  cases exec_effect h with
  | writesReg | readsConsole | writesMem => simp
  | @callsRoutine a v r w s' haddr hroutine hdone =>
    obtain ⟨-, -, -, -, -, -, hother, -⟩ := invoke_done hdone
    by_cases hheap : r = .heapAlloc ∨ r = .heapFree
    · have ha : a = 0x0830 ∨ a = 0x0834 := by
        rcases hheap with rfl | rfl
        · exact .inl (by simpa using writeRoutineAt_some hroutine)
        · exact .inr (by simpa using writeRoutineAt_some hroutine)
      rw [haddr, Option.some_inj, Option.some_inj]
      exact .inr ha
    · exact .inl (hother (hheap ∘ .inl) (hheap ∘ .inr))
  | raises hlist => exact hlist.imp_right fun ⟨haddr, _⟩ => .inr haddr

/-! ## Instructions with no next state -/

theorem store_ne_fault (w : Width) (rs1 rs2 : RegIdx) (imm : Word) (s : State) (f : Fault) :
    store w rs1 rs2 imm s ≠ .fault f := by
  unfold store
  split <;> simp

/-- No instruction faults. -/
theorem exec_ne_fault (i : Instr) (s : State) (f : Fault) : exec i s ≠ .fault f := by
  rcases exec_shape i s with ⟨-, -, -, rd, v, hx⟩ | ⟨-, -, -, w, ext, rd, rs1, imm, hx⟩
    | ⟨-, -, w, rs1, rs2, imm, hx, -⟩ <;> rw [hx]
  · simp
  · obtain ⟨t, ht⟩ := load_not_stuck w ext rd rs1 imm s
    simp [ht]
  · exact store_ne_fault w rs1 rs2 imm s f

/-- Only a store to VR_DUMP_WORD is refused (R70). -/
theorem exec_refused {i : Instr} {s : State} {r : Refusal} (h : exec i s = .refused r) :
    storeAddress s i = some 0x0828 ∧ ∃ a, r = .dumpWordOutsideImage a ∧ inInstData a.toNat 4 = false := by
  rcases exec_shape i s with ⟨-, -, -, rd, v, hx⟩ | ⟨-, -, -, w, ext, rd, rs1, imm, hx⟩
    | ⟨-, -, w, rs1, rs2, imm, hx, haddr⟩ <;> rw [hx] at h
  · cases h
  · obtain ⟨t, ht⟩ := load_not_stuck w ext rd rs1 imm s
    rw [ht] at h
    cases h
  · obtain ⟨ha, hr, hout⟩ := store_refused h
    exact ⟨haddr.trans (congrArg some ha), _, hr, hout⟩

end Sys2Proof.Machine
end

-- The end of a cycle and the step (10_state.md section 5, rule R30).
section
namespace Sys2Proof.Machine

open Sys2Proof

@[simp] theorem endCycle_mem (t : State) : (endCycle t).mem = t.mem := by
  rcases endCycle_cases t with ⟨-, h⟩ | ⟨-, -, h⟩ | ⟨-, -, h⟩ <;> rw [h] <;> rfl

theorem State.clearX0_x0 (t : State) : t.clearX0.x[0] = 0 := by
  simp

/-- An error stop skips steps 5 and 6. -/
theorem endCycle_of_err {t : State} (h : t.err ≠ .none) : endCycle t = t :=
  if_pos h

theorem endCycle_of_pc_lt {t : State} (herr : t.err = .none) (hpc : t.pc.toNat < 1024) : endCycle t = t.clearX0 := by
  rw [endCycle, if_neg (not_not.mpr herr)]
  exact if_neg (not_le.mpr hpc)

theorem endCycle_of_pc_ge {t : State} (herr : t.err = .none) (hpc : 1024 ≤ t.pc.toNat) :
    endCycle t = t.clearX0.raise .pcOutOfBounds := by
  rw [endCycle, if_neg (not_not.mpr herr)]
  exact if_pos hpc

/-- The end of a cycle runs steps 5 and 6 of R30 on the outcome of an instruction that answered a next state. -/
def finishCycle : Result → Result
  | .next t => .next (endCycle t)
  | .fault f => .fault f
  | .refused r => .refused r

theorem step_stopped {s : State} (h : s.run = false) : step s = .next s :=
  if_pos h

theorem step_running {s : State} (h : Running s) :
    step s = match decode s.fetch with
      | .ok i => finishCycle (exec i s)
      | .error _ => .next (s.raise .unknownInstruction) := by
  obtain ⟨hrun, herr, hpc⟩ := h
  unfold step cycle
  rw [if_neg (by simp [hrun]), if_neg (by simp [herr]), if_neg (by simp [Config.instSize]; omega)]
  cases decode s.fetch with
  | error e => rfl
  | ok i => cases hx : exec i s <;> simp [finishCycle, hx]

theorem step_of_decode_ok {s : State} {i : Instr} (h : Running s) (hi : decode s.fetch = .ok i) :
    step s = finishCycle (exec i s) := by
  rw [step_running h, hi]

theorem step_of_decode_error {s : State} {e : Reject} (h : Running s) (he : decode s.fetch = .error e) :
    step s = .next (s.raise .unknownInstruction) := by
  rw [step_running h, he]

end Sys2Proof.Machine
end

-- The statements about the cycle (10_state.md sections 5 and 7).
section
namespace Sys2Proof.Machine

open Sys2Proof

/-- Settles O30: a step of a running machine by `step_of_decode_ok`, the end of a cycle by its three equations. -/
theorem stepRunsDecoded : Obligations.StepRunsDecoded := by
  refine ⟨fun s i hs hi => ?_, fun t => ?_⟩
  · rw [step_of_decode_ok hs hi]
    cases exec i s <;> rfl
  · exact ⟨endCycle_of_err, endCycle_of_pc_lt, endCycle_of_pc_ge⟩

/-- Settles O33: the cycle ends by clearing x[0], which no register read sees. -/
theorem pcInBoundsContinues : Obligations.PcInBoundsContinues := by
  intro s t i hs hi hx herr hpc
  refine ⟨t.clearX0, ?_, ?_, t.clearX0_x0⟩
  · rw [step_of_decode_ok hs hi, hx, finishCycle, endCycle_of_pc_lt herr hpc]
  · exact ⟨t.clearX0_reg, rfl, rfl, rfl, fun _ => rfl, rfl, rfl⟩

/-- Settles O34: `step_stopped`, the first branch of the cycle. -/
theorem stoppedMachineStays : Obligations.StoppedMachineStays :=
  fun _ h => step_stopped h

/-- Settles O10: of the ends of a cycle only an error stop of the instruction itself leaves the storage of x[0] alone,
and its error is neither of the two. -/
theorem x0ZeroAfterCycle : Obligations.X0ZeroAfterCycle := by
  intro s t hs hstep herr
  refine ⟨?_, t.reg_zero⟩
  rcases step_next hstep with ⟨hrun, -⟩ | ⟨-, -, -, ⟨-, rfl⟩ | ⟨i, u, -, hx, rfl⟩⟩
  · rw [hs.run] at hrun
    cases hrun
  · simp at herr
  · rcases endCycle_cases u with ⟨hsome, h⟩ | ⟨-, -, h⟩ | ⟨-, -, h⟩ <;> rw [h] at herr ⊢
    · rcases exec_status hx with ⟨hsame, -⟩ | ⟨hillegal, -⟩
      · exact absurd (hsame.trans hs.err) hsome
      · simp [hillegal] at herr
    · exact u.clearX0_x0
    · exact u.clearX0_x0

/-- Settles O29: the pc of `exec_status`; an unknown word ends in the error entry, which keeps the pc. -/
theorem nextPcTable : Obligations.NextPcTable := by
  refine ⟨fun i s t hs hx => ?_, fun s t hs he hstep => ?_⟩
  · rcases exec_status hx with ⟨herr, hpc, -⟩ | ⟨herr, hpc, -⟩
    · rw [if_pos (herr.trans hs), hpc]
    · rw [if_neg (by simp [herr]), hpc]
  · rw [step_of_decode_error hs he] at hstep
    cases hstep
    rfl

/-- The end of a cycle adds at most the diagnostic of an error (R213). -/
theorem endCycle_out (t : State) : ∃ es, (endCycle t).out = t.out ++ es := by
  rcases endCycle_cases t with ⟨-, h⟩ | ⟨-, -, h⟩ | ⟨-, -, h⟩ <;> rw [h]
  · exact ⟨[], by simp⟩
  · exact ⟨_, State.raise_out _ _⟩
  · exact ⟨[], by simp⟩

/-- `OUT` only grows in a step (R31). -/
theorem step_out {s t : State} (h : step s = .next t) : ∃ es, t.out = s.out ++ es := by
  rcases step_next h with ⟨-, rfl⟩ | ⟨-, -, -, ⟨-, rfl⟩ | ⟨i, u, -, hx, rfl⟩⟩
  · exact ⟨[], by simp⟩
  · exact ⟨_, State.raise_out _ _⟩
  · obtain ⟨es, hes⟩ := exec_out hx
    obtain ⟨fs, hfs⟩ := endCycle_out u
    exact ⟨es ++ fs, by rw [hfs, hes, List.append_assoc]⟩

/-- A step of a running machine that leaves an error has stopped the machine, with one of the three errors the hardware
raises (R35, R217). -/
theorem step_err {s t : State} (hs : s.run = true) (h : step s = .next t) : t.err = .none ∨ ErrorStop t := by
  rcases step_next h with ⟨hrun, -⟩ | ⟨-, herr, -, ⟨-, rfl⟩ | ⟨i, u, -, hx, rfl⟩⟩
  · rw [hs] at hrun
    cases hrun
  · exact .inr ⟨rfl, .inl rfl⟩
  · rcases endCycle_cases u with ⟨hsome, h⟩ | ⟨-, -, h⟩ | ⟨hnone, -, h⟩ <;> rw [h]
    · rcases exec_status hx with ⟨hsame, -⟩ | ⟨hillegal, -, hrun⟩
      · exact absurd (hsame.trans herr) hsome
      · exact .inr ⟨hrun, .inr (.inl hillegal)⟩
    · exact .inr ⟨rfl, .inr (.inr rfl)⟩
    · exact .inl hnone

/-- Settles O37: `step_out` and `step_err`; a stopped machine stays as it is. -/
theorem statusIsMonotone : Obligations.StatusIsMonotone := by
  intro s t hstep
  refine ⟨step_out hstep, ?_⟩
  rcases step_next hstep with ⟨-, rfl⟩ | ⟨hrun, herr, -⟩
  · exact ⟨id, fun hne => absurd rfl hne⟩
  · refine ⟨fun _ => hrun, fun hne => ⟨herr, hrun, ?_⟩⟩
    rcases step_err hrun hstep with hnone | ⟨hstop, -⟩
    · exact absurd (hnone.trans herr.symm) hne
    · exact hstop

/-- Settles O39: an error means an error stop (`step_err`); without one the run flag was cleared by the instruction, and
`exec_status` says which one. -/
theorem twoKindsOfEnd : Obligations.TwoKindsOfEnd := by
  intro s t _ hrun hstep hstop
  rcases step_err hrun hstep with hnone | herr
  · refine .inl ⟨⟨hstop, hnone⟩, ?_⟩
    rcases step_next hstep with ⟨hrun', -⟩ | ⟨-, -, -, ⟨-, rfl⟩ | ⟨i, u, hi, hx, rfl⟩⟩
    · rw [hrun] at hrun'
      cases hrun'
    · cases hnone
    · refine ⟨i, hi, ?_⟩
      rcases endCycle_cases u with ⟨hsome, h⟩ | ⟨-, -, h⟩ | ⟨hu, -, h⟩ <;> rw [h] at hnone hstop
      · exact absurd hnone hsome
      · cases hnone
      · rcases exec_status hx with ⟨-, -, hsame | haddr⟩ | ⟨hillegal, -⟩
        · rw [State.clearX0_run, hsame, hrun] at hstop
          cases hstop
        · exact haddr
        · rw [hu] at hillegal
          cases hillegal
  · exact .inr herr

/-- Settles O42: `exec_alloc`. -/
theorem allocChangedByRoutinesOnly : Obligations.AllocChangedByRoutinesOnly :=
  fun _ _ _ hx hne => (exec_alloc hx).resolve_left hne

/-- Settles O41: the two ends of a step that run no instruction leave the memory, and an instruction leaves the segment
(`exec_instruction_segment`). -/
theorem instructionSegmentUnchanged : Obligations.InstructionSegmentUnchanged := by
  intro s t hs hstep a ha
  rcases step_next hstep with ⟨-, rfl⟩ | ⟨-, -, -, ⟨-, rfl⟩ | ⟨i, u, -, hx, rfl⟩⟩
  · rfl
  · rfl
  · rw [endCycle_mem]
    exact exec_instruction_segment hs hx ha

end Sys2Proof.Machine
end

-- The invariant of a run (10_state.md section 8, rule R36).
section
namespace Sys2Proof.Machine

open Sys2Proof

/-- While the machine runs, the invariant makes its state the start of a cycle. -/
theorem Inv.toRunning {s : State} (hs : Inv s) (hrun : s.run = true) : Running s :=
  ⟨hrun, (hs.running hrun).1, (hs.running hrun).2⟩

theorem Inv.unknownInstruction {s : State} (hs : Inv s) : Inv (s.raise .unknownInstruction) :=
  ⟨hs.x0, hs.mem, hs.alloc, by simp, by simp⟩

/-- The end of the cycle restores the part of the invariant that an instruction may break: the pc bound. -/
theorem inv_endCycle {t : State} (hx0 : t.x[0] = 0) (hmem : t.mem.wf) (halloc : allocWf t.alloc)
    (herr : t.err = .none ∨ t.err = .illegalOperation ∧ t.run = false) : Inv (endCycle t) := by
  rcases endCycle_cases t with ⟨hsome, h⟩ | ⟨-, -, h⟩ | ⟨hnone, hpc, h⟩ <;> rw [h]
  · obtain ⟨hillegal, hrun⟩ := herr.resolve_left hsome
    exact ⟨hx0, hmem, halloc, by simp [hillegal], by simp [hrun]⟩
  · exact ⟨t.clearX0_x0, hmem, halloc, by simp, by simp⟩
  · exact ⟨t.clearX0_x0, hmem, halloc, by simp [hnone], fun _ => ⟨hnone, hpc⟩⟩

/-- Settles O52: an instruction keeps the form of memory and list and the storage of x[0], and the end of the cycle
checks its pc. -/
theorem stepKeepsInvariant : Obligations.StepKeepsInvariant := by
  intro s t hs hstep
  rcases step_next hstep with ⟨-, rfl⟩ | ⟨-, herr, -, ⟨-, rfl⟩ | ⟨i, u, -, hx, rfl⟩⟩
  · exact hs
  · exact hs.unknownInstruction
  · refine inv_endCycle ((exec_x0 hx).trans hs.x0) (exec_mem_wf hs.mem hx) (exec_allocWf hs.alloc hx) ?_
    rcases exec_status hx with ⟨hsame, -⟩ | ⟨hillegal, -, hrun⟩
    · exact .inl (hsame.trans herr)
    · exact .inr ⟨hillegal, hrun⟩

/-- Settles O51: the reset state field by field. -/
theorem resetMeetsInvariant : Obligations.ResetMeetsInvariant :=
  ⟨by decide, State.reset_mem_wf, by decide, by decide, fun _ => ⟨rfl, by decide⟩⟩

/-- Settles O38: under the invariant a machine that has not stopped starts a cycle, and of the instructions only a store
to VR_DUMP_WORD has no next state. -/
theorem onlyDumpWordIsRefused : Obligations.OnlyDumpWordIsRefused := by
  intro s hs
  cases hrun : s.run with
  | false => simp [step_stopped hrun]
  | true =>
    have hstart := hs.toRunning hrun
    cases hd : decode s.fetch with
    | error e => simp [step_of_decode_error hstart hd]
    | ok i =>
      rw [step_of_decode_ok hstart hd]
      cases hx : exec i s with
      | next t => simp [finishCycle]
      | fault f => exact absurd hx (exec_ne_fault i s f)
      | refused r =>
        obtain ⟨haddr, a, rfl, hout⟩ := exec_refused hx
        refine ⟨by simp [finishCycle], fun r hr => ?_⟩
        cases hr
        have hpast : Config.dataEnd < a.toNat + 4 := by
          rw [inInstData, decide_eq_false_iff_not] at hout
          exact not_le.mp hout
        exact ⟨i, a, rfl, haddr, rfl, hpast⟩

/-- What holds at the start and is kept by every step holds after any number of steps. -/
theorem run_induction {P : State → Prop} (hstep : ∀ s t, P s → step s = .next t → P t) {k : Nat} {s t : State}
    (hs : P s) (hrun : Host.Core.run core k s = .next t) : P t := by
  induction k generalizing s with
  | zero =>
    cases hrun
    exact hs
  | succ k ih =>
    cases hx : step s with
    | next u =>
      have hrest : Host.Core.run core k u = .next t := by
        simpa [Host.Core.run, core, hx] using hrun
      exact ih (hstep s u hs hx) hrest
    | fault f => simp [Host.Core.run, core, hx] at hrun
    | refused r => simp [Host.Core.run, core, hx] at hrun

/-- The state of reset with an image differs from the reset state by the loaded memory alone (R241). -/
theorem resetWithImage_some {image : List Byte} {s : State} (h : State.resetWithImage image = some s) :
    image.length = Config.imageSize ∧ s = { State.reset with mem := Memory.load [] 0 image } := by
  unfold State.resetWithImage at h
  split at h
  next hlen => exact ⟨hlen, (Option.some.inj h).symm⟩
  next => cases h

theorem inv_resetWithImage {image : List Byte} {s : State} (h : State.resetWithImage image = some s) : Inv s := by
  obtain ⟨-, rfl⟩ := resetWithImage_some h
  have hreset : Inv State.reset := resetMeetsInvariant
  exact ⟨hreset.x0, Memory.load_wf 0 image hreset.mem, hreset.alloc, hreset.err, hreset.running⟩

theorem byteAt_resetWithImage {image : List Byte} {s : State} (h : State.resetWithImage image = some s) {a : Nat}
    (ha : a < image.length) : s.mem.byteAt a = image[a] := by
  obtain ⟨hlen, rfl⟩ := resetWithImage_some h
  have hfit : 0 + image.length ≤ Config.dataEnd := by simp [hlen, Config.imageSize, Config.dataEnd]
  have hload := Memory.byteAt_load (m := []) 0 image State.reset_mem_wf hfit a
  simpa [ha] using hload

/-- What every state of a run from an image keeps: the invariant and the image's instruction segment. -/
def RunInv (image : List Byte) (s : State) : Prop :=
  Inv s ∧ ∀ a (h : a < image.length), a < 1024 → s.mem.byteAt a = image[a]

theorem step_runInv {image : List Byte} (s t : State) (hs : RunInv image s) (h : step s = .next t) :
    RunInv image t := by
  obtain ⟨hinv, hsegment⟩ := hs
  refine ⟨stepKeepsInvariant s t hinv h, fun a ha hlt => ?_⟩
  rw [instructionSegmentUnchanged s t hinv.mem h a hlt]
  exact hsegment a ha hlt

/-- Settles O54: `RunInv` holds at reset with the image and every step keeps it. -/
theorem runsFromAnyImage : Obligations.RunsFromAnyImage := by
  intro image s t k hreset hk hrun
  have hstart : RunInv image s := ⟨inv_resetWithImage hreset, fun a ha _ => byteAt_resetWithImage hreset ha⟩
  obtain ⟨hinv, hsegment⟩ := run_induction step_runInv hstart hk
  obtain ⟨herr, hpc⟩ := hinv.running hrun
  exact ⟨t.reg_zero, hinv.x0, hpc, herr, hinv.alloc, hsegment⟩

end Sys2Proof.Machine
end

-- A word placed at the pc (rules R30 and R46).
section
namespace Sys2Proof.Machine

open Sys2Proof

theorem decode_of_decodeTableWord {w : Nat} {i : Instr} (h : decodeTableWord 32 w = some i) :
    decode (BitVec.ofNat 32 w) = .ok i := by
  have hw : BitVec.ofNat 32 (w % 2 ^ 32) = BitVec.ofNat 32 w := by
    apply BitVec.eq_of_toNat_eq
    simp
  simp only [decodeTableWord, decodeBytes, wordOfBytes_byteOf, hw] at h
  cases hd : decode (BitVec.ofNat 32 w) with
  | error e => simp [hd] at h
  | ok j => simpa [hd] using h

theorem fetch_withFetchWord {s : State} (w : Nat) (hm : s.mem.wf) (hpc : s.pc.toNat < 1024) :
    (s.withFetchWord 32 w).fetch = BitVec.ofNat 32 w := by
  have hread := Memory.readBytes_writeBytes_word (BitVec.ofNat 32 (w % 2 ^ 32)) hm
    (a := s.pc.toNat) (by simp only [Config.dataEnd]; omega)
  refine hread.trans (BitVec.eq_of_toNat_eq ?_)
  simp

/-- Settles O55: the placed word is fetched back, and the placing changes memory alone. -/
theorem placedWordRuns : Obligations.PlacedWordRuns := by
  intro s w i hs hm hw
  have hfetch := fetch_withFetchWord w hm hs.pc
  have hs' : Running (s.withFetchWord 32 w) := ⟨hs.run, hs.err, hs.pc⟩
  refine ⟨hfetch, ?_⟩
  rw [step_of_decode_ok hs' (by rw [hfetch, decode_of_decodeTableWord hw])]
  cases exec i (s.withFetchWord 32 w) <;> rfl

end Sys2Proof.Machine
end

-- The heap bank allocator (20_memory.md section 6, rules R75 to R81).
section
namespace Sys2Proof.Machine

open Sys2Proof

/-! ## Bytes in allocated nodes -/

theorem Node.covers_iff (nd : Node) (b : Nat) :
    nd.covers b = true ↔ 0xB700 + 64 * nd.start ≤ b ∧ b < 0xB700 + 64 * (nd.start + nd.len) := by
  rw [Node.covers, Bool.and_eq_true, decide_eq_true_eq, decide_eq_true_eq]
  rfl

theorem allocated_iff_covers (l : List Node) (b : Nat) : Allocated l b ↔ ∃ nd ∈ l, nd.covers b = true := by
  simp only [Allocated, Node.covers_iff]

theorem isValidRange_iff (l : List Node) (a n : Nat) :
    isValidRange l a n = true ↔ ∀ b, a ≤ b → b < a + n → Allocated l b := by
  simp only [isValidRange, List.all_eq_true, List.mem_range, List.any_eq_true, ← allocated_iff_covers]
  constructor
  · intro h b hab hb
    have hbyte := h (b - a) (by omega)
    rwa [Nat.add_sub_cancel' hab] at hbyte
  · exact fun h i hi => h (a + i) (by omega) (by omega)

/-- Settles O43: `isValidRange_iff`; the source's two examples are evaluated. -/
theorem validRangeIsPerByte : Obligations.ValidRangeIsPerByte :=
  ⟨isValidRange_iff, by decide, by decide⟩

/-! ## Nodes that share no bank -/

/-- The two nodes share no bank (R29). -/
def Node.Apart (p q : Node) : Prop := p.stop ≤ q.start ∨ q.stop ≤ p.start

theorem Node.Apart.symm {p q : Node} (h : p.Apart q) : q.Apart p := Or.symm h

theorem allocWf_apart {l : List Node} (hl : allocWf l) : l.Pairwise Node.Apart := hl.1.imp Or.inl

theorem Node.Apart.not_covers {p q : Node} (h : p.Apart q) {b : Nat} (hp : p.covers b = true) :
    ¬ q.covers b = true := by
  rw [Node.covers_iff] at hp ⊢
  unfold Node.Apart Node.stop at h
  omega

/-- A node of a well-formed list shares no bank with the others, wherever it stands in the list. -/
theorem apart_of_perm_cons {l l' : List Node} {nd : Node} (hl' : allocWf l') (hperm : l'.Perm (nd :: l)) :
    ∀ p ∈ l, nd.Apart p :=
  (List.pairwise_cons.mp (hperm.pairwise (allocWf_apart hl') Node.Apart.symm)).1

/-- With one node more, exactly that node's bytes are allocated in addition, and none of them was before. -/
theorem allocated_of_perm_cons {l l' : List Node} {nd : Node} (hl' : allocWf l') (hperm : l'.Perm (nd :: l))
    (b : Nat) :
    (Allocated l' b ↔ Allocated l b ∨ nd.covers b = true) ∧ (nd.covers b = true → ¬ Allocated l b) := by
  simp only [allocated_iff_covers]
  refine ⟨by simp [hperm.mem_iff, or_comm], ?_⟩
  rintro hnd ⟨p, hp, hcovers⟩
  exact (apart_of_perm_cons hl' hperm p hp).not_covers hnd hcovers

/-- Two nodes of a well-formed list that start at the same bank are the same node. -/
theorem eq_of_start_eq {l : List Node} (hl : allocWf l) {p q : Node} (hp : p ∈ l) (hq : q ∈ l)
    (hstart : p.start = q.start) : p = q := by
  by_contra hne
  have hq' : q ∈ l.erase p := (List.mem_erase_of_ne (Ne.symm hne)).mpr hq
  have hlenp := (hl.2 p hp).1
  have hlenq := (hl.2 q hq).1
  rcases apart_of_perm_cons hl (List.perm_cons_erase hp) q hq' with h | h <;> unfold Node.stop at h <;> omega

/-- Removing by the start bank takes out the one node that starts there. -/
theorem removeNode_start {l : List Node} (hl : allocWf l) {nd : Node} (hnd : nd ∈ l) :
    removeNode nd.start l = l.erase nd := by
  rcases removeNode_cases nd.start l with h | ⟨p, hp, hstart, h⟩
  · have hnone := List.eraseP_eq_self_iff.mp h nd hnd
    simp at hnone
  · rw [h, eq_of_start_eq hl hp hnd hstart]

/-- A sorted list of nodes is determined by its nodes. -/
theorem allocWf_eq_of_perm {l l' : List Node} (hl : allocWf l) (hl' : allocWf l') (hperm : l.Perm l') : l = l' := by
  refine hperm.eq_of_pairwise (fun p q hp hq hpq hqp => ?_) hl.1 hl'.1
  have hlen := (hl.2 p hp).1
  unfold Node.stop at hpq hqp
  omega

/-! ## Allocate (R77) -/

/-- A run of free banks is never passed over: the search ends at it or below it. -/
theorem firstFit_of_freeBanks {need gap g : Nat} {l : List Node} (hfree : FreeBanks l g need) (hgap : gap ≤ g) :
    ∃ k l', firstFit need gap l = some (k, l') ∧ k ≤ g := by
  obtain ⟨hfits, hnodes⟩ := hfree
  induction l generalizing gap with
  | nil =>
    have hhere : gap + need ≤ Config.nBank := by unfold Config.nBank; omega
    exact ⟨gap, _, if_pos hhere, hgap⟩
  | cons x xs ih =>
    by_cases hhere : gap + need ≤ x.start
    · exact ⟨gap, _, if_pos hhere, hgap⟩
    · have hpast : x.stop ≤ g := by
        rcases hnodes x List.mem_cons_self with h | h
        · exact h
        · omega
      obtain ⟨k, l', hk, hle⟩ := ih hpast fun nd hnd => hnodes nd (List.mem_cons_of_mem x hnd)
      exact ⟨k, x :: l', by simp [firstFit, hhere, hk], hle⟩

/-- `l'` is `l` with a new node of `need` banks in the lowest run of free banks, at bank `g` (R77). -/
structure Places (need : Nat) (l : List Node) (g : Nat) (l' : List Node) : Prop where
  free : FreeBanks l g need
  lowest : ∀ g', g' < g → ¬ FreeBanks l g' need
  perm : l'.Perm (⟨g, need⟩ :: l)
  wf : allocWf l'

theorem firstFit_places {need g : Nat} {l l' : List Node} (hl : allocWf l) (hneed : 1 ≤ need)
    (h : firstFit need 0 l = some (g, l')) : Places need l g l' := by
  obtain ⟨-, hfits, hperm, -⟩ := firstFit_some h hl.1 fun n hn => ⟨Nat.zero_le _, (hl.2 n hn).2⟩
  have hwf := allocWf_firstFit hl hneed h
  refine ⟨⟨hfits, fun nd hnd => (apart_of_perm_cons hwf hperm nd hnd).symm⟩, fun g' hlt hfree => ?_, hperm, hwf⟩
  obtain ⟨k, l'', hk, hle⟩ := firstFit_of_freeBanks hfree (Nat.zero_le g')
  rw [h] at hk
  cases hk
  omega

theorem toNat_bankAddr {g : Nat} (hg : g ≤ Config.nBank) :
    (BitVec.ofNat 32 (bankAddr g)).toNat = 0xB700 + 64 * g := by
  unfold Config.nBank at hg
  simp only [BitVec.toNat_ofNat, bankAddr, Config.heapBase, Config.bankSize]
  omega

theorem allocate_of_size_out_of_range {size : Int} (l : List Node) (h : size ≤ 0 ∨ 8192 < size) :
    allocate size l = (0, l) :=
  if_pos h

/-- All that `Allocate` can do with a size in range: take the lowest run that is long enough, or, when there is none,
answer 0 and leave the list. -/
theorem allocate_cases {size : Int} {l : List Node} (hl : allocWf l) (hpos : 0 < size) (hmax : size ≤ 8192) :
    (∃ g, Places (banksNeeded size) l g (allocate size l).2 ∧ (allocate size l).1.toNat = 0xB700 + 64 * g)
    ∨ ((¬ ∃ g, FreeBanks l g (banksNeeded size)) ∧ allocate size l = (0, l)) := by
  have hsize : ¬ (size ≤ 0 ∨ (Config.heapSize : Int) < size) := by unfold Config.heapSize; omega
  cases hfit : firstFit (banksNeeded size) 0 l with
  | some r =>
    obtain ⟨g, l'⟩ := r
    have hplaces := firstFit_places hl (banksNeeded_pos hpos) hfit
    have halloc : allocate size l = (BitVec.ofNat 32 (bankAddr g), l') := by
      rw [allocate, if_neg hsize, hfit]
    rw [halloc]
    exact .inl ⟨g, hplaces, toNat_bankAddr (le_trans (Nat.le_add_right g _) hplaces.free.1)⟩
  | none =>
    refine .inr ⟨?_, by rw [allocate, if_neg hsize, hfit]⟩
    rintro ⟨g, hfree⟩
    obtain ⟨k, l', hk, -⟩ := firstFit_of_freeBanks hfree (Nat.zero_le g)
    rw [hfit] at hk
    cases hk

/-- A result other than 0 is the address of a placed block, of as many banks as the size asks for. -/
theorem allocate_ne_zero {size : Int} {l : List Node} (hl : allocWf l) (h : (allocate size l).1 ≠ 0) :
    ∃ g, Places (banksNeeded size) l g (allocate size l).2 ∧ (allocate size l).1.toNat = 0xB700 + 64 * g := by
  by_cases hsize : size ≤ 0 ∨ 8192 < size
  · rw [allocate_of_size_out_of_range l hsize] at h
    exact absurd rfl h
  · have hpos : 0 < size := by omega
    rcases allocate_cases hl hpos (by omega) with hplaced | ⟨-, hzero⟩
    · exact hplaced
    · rw [hzero] at h
      exact absurd rfl h

/-- `banksNeeded` is the size in banks rounded up. -/
theorem banksNeeded_eq {size : Int} {need : Nat} (hlow : 64 * ((need : Int) - 1) < size)
    (hhigh : size ≤ 64 * (need : Int)) : banksNeeded size = need := by
  unfold banksNeeded Config.bankSize
  omega

theorem le_banksNeeded (size : Int) : size ≤ 64 * (banksNeeded size : Int) := by
  unfold banksNeeded Config.bankSize
  omega

/-- Settles O44: `allocate_cases`, with `need` the number of banks the allocator computes. -/
theorem allocateIsFirstFit : Obligations.AllocateIsFirstFit := by
  intro size l hl
  refine ⟨allocate_of_size_out_of_range l, fun need hpos hmax hlow hhigh => ?_⟩
  obtain rfl := banksNeeded_eq hlow hhigh
  rcases allocate_cases hl hpos hmax with ⟨g, hplaces, haddr⟩ | ⟨hnone, hzero⟩
  · refine ⟨fun _ => ⟨g, hplaces.free, hplaces.lowest, haddr, hplaces.perm, hplaces.wf⟩, fun hnone => ?_⟩
    exact absurd ⟨g, hplaces.free⟩ hnone
  · exact ⟨fun hsome => absurd hsome hnone, fun _ => hzero⟩

/-- Settles O47: the new node's bytes are those of a run of free banks. -/
theorem allocatedBlockIsFresh : Obligations.AllocatedBlockIsFresh := by
  intro size l hl hne
  obtain ⟨g, hplaces, haddr⟩ := allocate_ne_zero hl hne
  have hfits := hplaces.free.1
  refine ⟨64 * banksNeeded size, mod_cast le_banksNeeded size, by omega, fun b => ?_⟩
  have hcovers : Node.covers ⟨g, banksNeeded size⟩ b = true
      ↔ (allocate size l).1.toNat ≤ b ∧ b < (allocate size l).1.toNat + 64 * banksNeeded size := by
    rw [Node.covers_iff, haddr, Nat.mul_add, Nat.add_assoc]
  obtain ⟨hafter, hbefore⟩ := allocated_of_perm_cons hplaces.wf hplaces.perm b
  rw [hcovers] at hafter hbefore
  exact ⟨hafter, fun h1 h2 => hbefore ⟨h1, h2⟩⟩

/-! ## Free (R78) -/

theorem onBankBoundary_iff (a : Word) :
    onBankBoundary a = true ↔ 0xB700 ≤ a.toNat ∧ (a.toNat - 0xB700) % 64 = 0 := by
  rw [onBankBoundary, Bool.and_eq_true, decide_eq_true_eq, decide_eq_true_eq]
  rfl

theorem bankIndex_eq (a : Word) : bankIndex a = (a.toNat - 0xB700) / 64 := rfl

/-- The address of a bank is on a bank boundary and never 0, and `bankIndex` gives the bank back (R76). -/
theorem bank_of_address {a : Word} {k : Nat} (h : a.toNat = 0xB700 + 64 * k) :
    a ≠ 0 ∧ onBankBoundary a = true ∧ bankIndex a = k := by
  rw [onBankBoundary_iff, bankIndex_eq]
  refine ⟨?_, by omega, by omega⟩
  rintro rfl
  have hzero : (0 : Word).toNat = 0 := rfl
  omega

/-- An address on a bank boundary is the address of its bank (R76). -/
theorem address_of_bankIndex {a : Word} (h : onBankBoundary a = true) : a.toNat = 0xB700 + 64 * bankIndex a := by
  rw [onBankBoundary_iff] at h
  rw [bankIndex_eq]
  omega

theorem free?_zero (l : List Node) : free? 0 l = some l := rfl

theorem free?_of_mem {a : Word} {l : List Node} {nd : Node} (hl : allocWf l) (hnd : nd ∈ l)
    (ha : a.toNat = 0xB700 + 64 * nd.start) : free? a l = some (l.erase nd) := by
  obtain ⟨hne, hboundary, hindex⟩ := bank_of_address ha
  have hstarts : l.any (fun p => p.start == nd.start) = true := List.any_eq_true.mpr ⟨nd, hnd, by simp⟩
  simp only [free?, if_neg hne, hboundary, hindex, hstarts, Bool.and_self, if_true, removeNode_start hl hnd]

/-- Any address but 0 that is not the first byte of a node raises. -/
theorem free?_of_not_start {a : Word} {l : List Node} (hne : a ≠ 0)
    (h : ∀ nd ∈ l, a.toNat ≠ 0xB700 + 64 * nd.start) : free? a l = none := by
  rw [free?, if_neg hne, if_neg]
  rw [Bool.and_eq_true, List.any_eq_true]
  rintro ⟨hboundary, nd, hnd, hstart⟩
  apply h nd hnd
  rw [address_of_bankIndex hboundary, beq_iff_eq.mp hstart]

/-- After a free that raised the list is unchanged, or without the node at the truncated bank index (R78, D19). -/
theorem allocAfterFailedFree_cases (a : Word) (l : List Node) :
    allocAfterFailedFree a l = l
    ∨ ∃ nd ∈ l, (nd.start : Int) = Int.tdiv (a.toNat - 0xB700) 64 ∧ allocAfterFailedFree a l = l.erase nd := by
  unfold allocAfterFailedFree
  split
  next hremoves =>
    rw [Bool.and_eq_true, List.any_eq_true] at hremoves
    obtain ⟨⟨p, -, hp⟩, -⟩ := hremoves
    have hp : (p.start : Int) = truncIndex a := beq_iff_eq.mp hp
    refine (removeNode_cases (truncIndex a).toNat l).imp_right fun ⟨nd, hnd, hstart, h⟩ => ⟨nd, hnd, ?_, h⟩
    have hindex : (nd.start : Int) = truncIndex a := by omega
    exact hindex
  next => exact .inl rfl

/-- Settles O45: the first byte of a node by `free?_of_mem`, every other address by `free?_of_not_start`. -/
theorem freeRemovesExactBlock : Obligations.FreeRemovesExactBlock := by
  intro a l hl
  refine ⟨free?_zero l, fun nd hnd ha => ⟨free?_of_mem hl hnd ha, allocWf_erase hl nd, fun b => ?_⟩,
    free?_of_not_start, allocAfterFailedFree_cases a l⟩
  have hcovers : nd.covers b = true ↔ a.toNat ≤ b ∧ b < a.toNat + 64 * nd.len := by
    rw [Node.covers_iff, ha, Nat.mul_add, Nat.add_assoc]
  obtain ⟨hbefore, hgone⟩ := allocated_of_perm_cons hl (List.perm_cons_erase hnd) b
  rw [← hcovers, hbefore]
  tauto

/-- Settles O46: the freed node is the one placed, and without it the list has the nodes it had before, in order. -/
theorem freeUndoesAllocate : Obligations.FreeUndoesAllocate := by
  intro size l hl hne
  obtain ⟨g, hplaces, haddr⟩ := allocate_ne_zero hl hne
  have hnew : (⟨g, banksNeeded size⟩ : Node) ∈ (allocate size l).2 :=
    hplaces.perm.mem_iff.mpr List.mem_cons_self
  have hperm : ((allocate size l).2.erase ⟨g, banksNeeded size⟩).Perm l := by
    simpa using hplaces.perm.erase ⟨g, banksNeeded size⟩
  rw [free?_of_mem hplaces.wf hnew haddr, allocWf_eq_of_perm (allocWf_erase hplaces.wf _) hl hperm]

/-- Settles O48: the five steps evaluated. -/
theorem allocatorExample : Obligations.AllocatorExample :=
  ⟨by decide, by decide, by decide, by decide, by decide⟩

end Sys2Proof.Machine
end

-- Storage bytes, and the ranges a plain access may have (20_memory.md sections 2 to 4, rules R42 to R54).
section
namespace Sys2Proof.Machine

open Sys2Proof

/-- Settles O40: `Memory.byteAt_writeBytes` at an address that holds storage. -/
theorem memoryReadAfterWrite : Obligations.MemoryReadAfterWrite := by
  intro m a b n v hm hb
  rw [Memory.byteAt_writeBytes a v n hm]
  simp only [hb, and_true]
  rfl

/-- The heap branch of both dispatch algorithms (R49 step 3, R50 step 3). -/
theorem inHeap_and_isValidRange_iff (l : List Node) (a n : Nat) :
    (inHeap a n && isValidRange l a n) = true ↔ HeapOk l a n := by
  rw [inHeap, Bool.and_eq_true, Bool.and_eq_true, decide_eq_true_eq, decide_eq_true_eq, isValidRange_iff, and_assoc]
  rfl

theorem plainRead_iff (s : State) (a n : Nat) : plainRead s a n = true ↔ Readable s a n := by
  rw [plainRead, Bool.or_eq_true, inHeap_and_isValidRange_iff, inInstData, decide_eq_true_eq]
  rfl

theorem plainWrite_iff (s : State) (a n : Nat) : plainWrite s a n = true ↔ Writable s a n := by
  rw [plainWrite, Bool.or_eq_true, inHeap_and_isValidRange_iff, inData, Bool.and_eq_true, decide_eq_true_eq,
    decide_eq_true_eq]
  rfl

end Sys2Proof.Machine
end

-- Loads from the console and loads that raise (20_memory.md sections 3 and 5, rules R50, R66, R67).
section
namespace Sys2Proof.Machine

open Sys2Proof

/-- The error entry leaves registers, pc and memory, whatever list the failing access left (R217). -/
theorem stops_raise (s : State) (l : List Node) (e : ErrCode) : Stops s (State.raise { s with alloc := l } e) e :=
  ⟨fun _ => rfl, rfl, rfl, rfl, fun _ => rfl, rfl⟩

/-- A register write with a move of the pc, after a console event. -/
theorem readsConsole_emit (s : State) (rd : RegIdx) (v : Word) (e : Event) :
    ReadsConsole s (((s.emit e).setReg rd v).setPc (s.pc + 4)) rd v e where
  dest := by
    by_cases hrd : rd = 0
    · rw [if_pos hrd, hrd]; rfl
    · rw [if_neg hrd]; exact (s.emit e).reg_setReg_same v hrd
  others _ hi := (s.emit e).reg_setReg_of_ne v hi
  pc := rfl
  run := (s.emit e).setReg_run rd v
  err := (s.emit e).setReg_err rd v
  mem := fun a => by rw [State.setPc_mem, State.setReg_mem, State.emit_mem]
  alloc := (s.emit e).setReg_alloc rd v
  out := (s.emit e).setReg_out rd v

/-- Keeping the low bits twice keeps them once (R10). -/
theorem sext_zext {n : Nat} (hn : n ≤ 32) (v : Word) : sext n (zext n v) = sext n v := by
  simp only [sext, zext, BitVec.setWidth_setWidth_of_le _ hn, BitVec.setWidth_eq]

theorem zext_zext {n : Nat} (hn : n ≤ 32) (v : Word) : zext n (zext n v) = zext n v := by
  simp only [zext, BitVec.setWidth_setWidth_of_le _ hn, BitVec.setWidth_eq]

/-- A load from the address of a read routine (R50 step 1). -/
theorem load_of_readRoutine {w : Width} {ext : Word → Word} {rd rs1 : RegIdx} {imm c : Word} {s : State} {e : Event}
    {r : ReadRoutine} (hr : readRoutineAt (s.reg rs1 + imm) = some r) (hc : consoleRead r s = (c, s.emit e)) :
    ∃ t, load w ext rd rs1 imm s = .next t ∧ ReadsConsole s t rd (ext (zext (8 * widthBytes w) c)) e := by
  have hread : memRead s (s.ea rs1 imm) w = .done (zext (8 * widthBytes w) c) (s.emit e) := by
    simp only [memRead, State.ea, hr, hc]
  exact ⟨_, by rw [load, hread]; rfl, readsConsole_emit s rd _ e⟩

/-- A load of a range that is neither readable nor at a read routine (R50 step 4). -/
theorem load_of_not_readable {w : Width} {ext : Word → Word} {rd rs1 : RegIdx} {imm : Word} {s : State}
    (hplain : ¬ Readable s (s.reg rs1 + imm).toNat (widthBytes w))
    (hroutine : ¬ IsReadRoutine (s.reg rs1 + imm).toNat) :
    load w ext rd rs1 imm s = .next (s.raise .illegalOperation) := by
  rw [← readRoutineAt_none_iff] at hroutine
  rw [← plainRead_iff] at hplain
  rcases memRead_cases s (s.ea rs1 imm) w with ⟨r, hr, -⟩ | ⟨-, hp, -⟩ | ⟨-, -, hread⟩
  · rw [State.ea, hroutine] at hr
    cases hr
  · exact absurd hp hplain
  · rw [load, hread]

/-- Settles O17: both routines are `load_of_readRoutine`; the five loads differ in width and extension. -/
theorem loadsFromConsole : Obligations.LoadsFromConsole := by
  intro s rd rs1 imm c e h
  obtain ⟨r, hr, hc⟩ : ∃ r, readRoutineAt (s.reg rs1 + imm) = some r ∧ consoleRead r s = (c, s.emit e) := by
    rcases h with ⟨ha, rfl, rfl⟩ | ⟨ha, rfl, rfl⟩ <;> rw [ha]
    · exact ⟨.charIn, rfl, rfl⟩
    · exact ⟨.intIn, rfl, rfl⟩
  have hload (w : Width) (ext : Word → Word) (v : Word) (hv : ext (zext (8 * widthBytes w) c) = v) :
      ∃ t, load w ext rd rs1 imm s = .next t ∧ ReadsConsole s t rd v e :=
    hv ▸ load_of_readRoutine hr hc
  exact ⟨hload .byte (sext 8) _ (sext_zext (by decide) c), hload .byte (zext 8) _ (zext_zext (by decide) c),
    hload .half (sext 16) _ (sext_zext (by decide) c), hload .half (zext 16) _ (zext_zext (by decide) c),
    hload .word id _ (BitVec.setWidth_eq c)⟩

/-- Settles O18: every load is `load_of_not_readable` at its width. -/
theorem loadsElsewhereRaise : Obligations.LoadsElsewhereRaise := by
  intro s rd rs1 imm i n hi a hplain hroutine
  obtain ⟨w, ext, rfl, hx⟩ : ∃ w ext, widthBytes w = n ∧ exec i s = load w ext rd rs1 imm s := by
    rcases hi with ⟨rfl | rfl, rfl⟩ | ⟨rfl | rfl, rfl⟩ | ⟨rfl, rfl⟩
    · exact ⟨.byte, sext 8, rfl, rfl⟩
    · exact ⟨.byte, zext 8, rfl, rfl⟩
    · exact ⟨.half, sext 16, rfl, rfl⟩
    · exact ⟨.half, zext 16, rfl, rfl⟩
    · exact ⟨.word, id, rfl, rfl⟩
  rw [hx]
  exact ⟨_, load_of_not_readable hplain hroutine, stops_raise s s.alloc _, rfl⟩

end Sys2Proof.Machine
end

-- Stores that raise and the nine write routines (20_memory.md sections 3 and 5, rules R49, R60 to R72).
section
namespace Sys2Proof.Machine

open Sys2Proof

theorem exec_of_isStoreOf {i : Instr} {n : Nat} {rs1 rs2 : RegIdx} {imm : Word} (h : IsStoreOf i n rs1 rs2 imm)
    (s : State) : ∃ w, widthBytes w = n ∧ exec i s = store w rs1 rs2 imm s := by
  rcases h with ⟨rfl, rfl⟩ | ⟨rfl, rfl⟩ | ⟨rfl, rfl⟩
  · exact ⟨.byte, rfl, rfl⟩
  · exact ⟨.half, rfl, rfl⟩
  · exact ⟨.word, rfl, rfl⟩

/-- What a store does with the answer of the routine it calls: move the pc on, or raise. -/
def finishStore : Access Unit → Result
  | .done _ t => .next (t.setPc t.nextPc)
  | .illegal t => .next (t.raise .illegalOperation)
  | .refused r => .refused r

/-- The low bytes of the operand are those of the register, whatever the free bits above them (R65). -/
theorem operandOf_devOperand (w : Width) (v : Word) : OperandOf (widthBytes w) v (devOperand w v) := by
  cases w with
  | byte => exact BitVec.setWidth_append_eq_right
  | half => exact BitVec.setWidth_append_eq_right
  | word => rfl

/-- A store to the address of a write routine runs that routine (R49 step 1). -/
theorem exec_store_routine {i : Instr} {n : Nat} {rs1 rs2 : RegIdx} {imm : Word} {s : State} {r : WriteRoutine}
    (h : IsStoreOf i n rs1 rs2 imm) (hr : writeRoutineAt (s.reg rs1 + imm) = some r) :
    ∃ w, OperandOf n (s.reg rs2) (devOperand w (s.reg rs2)) ∧ exec i s = finishStore (invoke r w (s.reg rs2) s) := by
  obtain ⟨w, rfl, hx⟩ := exec_of_isStoreOf h s
  refine ⟨w, operandOf_devOperand w _, ?_⟩
  have hwrite : memWrite s (s.ea rs1 imm) w (s.reg rs2) = invoke r w (s.reg rs2) s := by
    simp only [memWrite, State.ea, hr]
  rw [hx, store, hwrite]
  cases invoke r w (s.reg rs2) s <;> rfl

/-- A store to a range that is neither writable nor at a write routine (R49 steps 3 and 4). -/
theorem store_of_not_writable {w : Width} {rs1 rs2 : RegIdx} {imm : Word} {s : State}
    (hplain : ¬ Writable s (s.reg rs1 + imm).toNat (widthBytes w))
    (hroutine : ¬ IsWriteRoutine (s.reg rs1 + imm).toNat) :
    store w rs1 rs2 imm s = .next (s.raise .illegalOperation) := by
  rw [← writeRoutineAt_none_iff] at hroutine
  rw [← plainWrite_iff] at hplain
  rcases memWrite_cases s (s.ea rs1 imm) w (s.reg rs2) with ⟨r, hr, -⟩ | ⟨-, hp, -⟩ | ⟨-, -, hwrite⟩
  · rw [State.ea, hroutine] at hr
    cases hr
  · exact absurd hp hplain
  · rw [store, hwrite]

/-- Settles O20: every store is `store_of_not_writable` at its width. -/
theorem storesElsewhereRaise : Obligations.StoresElsewhereRaise := by
  intro s rs1 rs2 imm i n hi hplain hroutine
  obtain ⟨w, rfl, hx⟩ := exec_of_isStoreOf hi s
  rw [hx]
  exact ⟨_, store_of_not_writable hplain hroutine, stops_raise s s.alloc _, rfl⟩

/-! ## Output and dumps (R61 to R63, R68 to R70) -/

/-- A routine that only appends an event, and the move of the pc. -/
theorem emits_setPc (s : State) (e : Event) : Emits s ((s.emit e).setPc (s.emit e).nextPc) e :=
  ⟨fun _ => rfl, rfl, rfl, rfl, fun _ => rfl, rfl, rfl⟩

/-- Settles O21: each of the three routines appends its event. -/
theorem outputRoutines : Obligations.OutputRoutines := by
  intro s rs1 rs2 imm i n hi
  refine ⟨fun ha => ?_, fun ha => ?_, fun ha => ?_⟩
  · obtain ⟨w, -, hx⟩ := exec_store_routine (r := .charOut) hi (by rw [ha]; rfl)
    exact ⟨_, hx, emits_setPc s _⟩
  · obtain ⟨w, hop, hx⟩ := exec_store_routine (r := .intOut) hi (by rw [ha]; rfl)
    exact ⟨_, _, hx, hop, emits_setPc s _⟩
  · obtain ⟨w, hop, hx⟩ := exec_store_routine (r := .hexOut) hi (by rw [ha]; rfl)
    exact ⟨_, _, hx, hop, emits_setPc s _⟩

/-- Settles O23: both dumps append an event of the state at the start of the store. -/
theorem dumpRoutines : Obligations.DumpRoutines := by
  intro s rs1 rs2 imm i n hi
  refine ⟨fun ha => ?_, fun ha => ?_⟩
  · obtain ⟨w, -, hx⟩ := exec_store_routine (r := .dumpPc) hi (by rw [ha]; rfl)
    exact ⟨_, hx, emits_setPc s _⟩
  · obtain ⟨w, -, hx⟩ := exec_store_routine (r := .dumpRegs) hi (by rw [ha]; rfl)
    exact ⟨_, s.regs, hx, fun k => by simp [State.regs], emits_setPc s _⟩

theorem dumpWord_of_le {op : Word} (s : State) (h : op.toNat + 4 ≤ 0x0800) :
    dumpWord op s = .done () (s.emit (.dumpWord op (s.mem.readBytes op.toNat .word))) :=
  if_pos (decide_eq_true h)

theorem dumpWord_of_lt {op : Word} (s : State) (h : 0x0800 < op.toNat + 4) :
    dumpWord op s = .refused (.dumpWordOutsideImage op) :=
  if_neg (by rw [inInstData, decide_eq_true_eq]; exact not_le.mpr h)

/-- Settles O24: the two cases of `dumpWord`. -/
theorem dumpWordRoutine : Obligations.DumpWordRoutine := by
  intro s rs1 rs2 imm i n hi ha
  obtain ⟨w, hop, hx⟩ := exec_store_routine (r := .dumpWord) hi (by rw [ha]; rfl)
  rw [invoke] at hx
  refine ⟨_, hop, fun hin => ?_, fun hout => ?_⟩
  · rw [dumpWord_of_le s hin] at hx
    exact ⟨_, hx, emits_setPc s _⟩
  · rw [hx, dumpWord_of_lt s hout, finishStore]

/-! ## Halt (R64) -/

theorem halts_setPc (s : State) : Halts s (State.setPc { s with run := false } (s.pc + 4)) :=
  ⟨rfl, fun _ => rfl, rfl, rfl, fun _ => rfl, rfl, rfl⟩

/-- The cycle of a halting store ends with x[0] cleared and the pc check, on either side of the bound (R30, D5). -/
theorem endCycle_of_halts {s t : State} (hs : Running s) (ht : Halts s t) :
    (endCycle t).run = false ∧ (endCycle t).pc = s.pc + 4 ∧ (endCycle t).x[0] = 0
    ∧ (s.pc.toNat + 4 < 1024 → (endCycle t).err = .none ∧ (endCycle t).out = s.out)
    ∧ (1024 ≤ s.pc.toNat + 4 → (endCycle t).err = .pcOutOfBounds) := by
  have herr : t.err = .none := ht.err.trans hs.err
  have hpc : t.pc.toNat = s.pc.toNat + 4 := by
    have hlt := hs.pc
    have hadd := BitVec.toNat_add s.pc 4
    have hfour : (4 : Word).toNat = 4 := rfl
    rw [ht.pc]
    omega
  rcases Nat.lt_or_ge t.pc.toNat 1024 with hlt | hge
  · rw [endCycle_of_pc_lt herr hlt]
    exact ⟨ht.run, ht.pc, t.clearX0_x0, fun _ => ⟨herr, ht.out⟩, fun hge => by omega⟩
  · rw [endCycle_of_pc_ge herr hge]
    exact ⟨rfl, ht.pc, t.clearX0_x0, fun hlt => by omega, fun _ => rfl⟩

/-- Settles O22: the store clears the run flag, and its cycle ends as `endCycle_of_halts` says. -/
theorem haltRoutine : Obligations.HaltRoutine := by
  intro s rs1 rs2 imm i n hi ha
  obtain ⟨w, -, hx⟩ := exec_store_routine (r := .halt) hi (by rw [ha]; rfl)
  refine ⟨⟨_, hx, halts_setPc s⟩, fun hs hd => ⟨_, ?_, endCycle_of_halts hs (halts_setPc s)⟩⟩
  rw [step_of_decode_ok hs hd, hx]
  rfl

/-! ## The heap routines (R71, R72) -/

/-- A heap routine that answers in x28. -/
theorem heapCall_setReg (s : State) (l : List Node) (v : Word) :
    HeapCall s ((State.setReg { s with alloc := l } Config.allocReg v).setPc (s.pc + 4)) l v where
  result := State.reg_setReg_same _ v (by decide)
  others _ hj := State.reg_setReg_of_ne _ v hj
  alloc := State.setReg_alloc _ _ v
  pc := rfl
  run := State.setReg_run _ _ v
  err := State.setReg_err _ _ v
  mem := fun _ => by rw [State.setPc_mem, State.setReg_mem]
  out := State.setReg_out _ _ v

/-- Settles O25: heap-allocate changes `ALLOC` and x28, and the store moves the pc. -/
theorem allocRoutine : Obligations.AllocRoutine := by
  intro s rs1 rs2 imm i n hi ha
  obtain ⟨w, hop, hx⟩ := exec_store_routine (r := .heapAlloc) hi (by rw [ha]; rfl)
  exact ⟨_, _, hx, hop, heapCall_setReg s _ _⟩

/-- A heap routine that keeps every register, x28 among them. -/
theorem heapCall_setPc (s : State) (l : List Node) :
    HeapCall s (State.setPc { s with alloc := l } (s.pc + 4)) l (s.reg 28) :=
  ⟨rfl, fun _ _ => rfl, rfl, rfl, rfl, rfl, fun _ => rfl, rfl⟩

/-- Settles O26: the two answers of `free?`; a failing one leaves what `allocAfterFailedFree_cases` says. -/
theorem freeRoutine : Obligations.FreeRoutine := by
  intro s rs1 rs2 imm i n hi ha
  obtain ⟨w, hop, hx⟩ := exec_store_routine (r := .heapFree) hi (by rw [ha]; rfl)
  rw [invoke, heapFree] at hx
  cases hfree : free? (devOperand w (s.reg rs2)) s.alloc with
  | some l =>
    rw [hfree] at hx
    refine ⟨_, _, hx, hop, fun l' hl' => ?_, fun hnone => ?_⟩
    · obtain rfl : l = l' := Option.some.inj (hfree.symm.trans hl')
      exact heapCall_setPc s l
    · rw [hfree] at hnone
      cases hnone
  | none =>
    rw [hfree] at hx
    refine ⟨_, _, hx, hop, fun l' hl' => ?_, fun _ => ⟨stops_raise s _ _, ?_⟩⟩
    · rw [hfree] at hl'
      cases hl'
    · exact allocAfterFailedFree_cases _ s.alloc

end Sys2Proof.Machine
end

-- The rows of the decoder's table and what a word decodes to (30_encoding.md section 5, rules R103 to R110).
section
namespace Sys2Proof

theorem Row.hits_iff (r : Row) (w : Word) : r.hits w = true ↔ w &&& r.mask = r.idBits := by
  simp [Row.hits]

/-- Two rows whose fixed bits differ where both masks look match no common word. -/
theorem Row.not_hits_both {p q : Row} (h : p.idBits &&& q.mask ≠ q.idBits &&& p.mask) (w : Word) :
    ¬ (p.hits w = true ∧ q.hits w = true) := by
  rintro ⟨hp, hq⟩
  rw [Row.hits_iff] at hp hq
  refine h ?_
  calc p.idBits &&& q.mask = w &&& p.mask &&& q.mask := by rw [hp]
    _ = w &&& q.mask &&& p.mask := by rw [BitVec.and_assoc, BitVec.and_comm p.mask, ← BitVec.and_assoc]
    _ = q.idBits &&& p.mask := by rw [hq]

/-- No word matches two rows (R107): any two rows differ in a bit that both fix. -/
theorem table_pairwise_disjoint : table.Pairwise fun p q => ∀ w, ¬ (p.hits w = true ∧ q.hits w = true) := by
  have hfixed : table.Pairwise fun p q => p.idBits &&& q.mask ≠ q.idBits &&& p.mask := by decide
  exact hfixed.imp Row.not_hits_both

/-- A word matches at most one row (R107). -/
theorem eq_of_hits {p q : Row} {w : Word} (hp : p ∈ table) (hq : q ∈ table) (hpw : p.hits w = true)
    (hqw : q.hits w = true) : p = q := by
  by_contra hne
  have hsymm : Std.Symm fun p q : Row => ∀ w, ¬ (p.hits w = true ∧ q.hits w = true) :=
    ⟨fun _ _ h w hw => h w hw.symm⟩
  exact table_pairwise_disjoint.forall hp hq hne w ⟨hpw, hqw⟩

/-- With at most one match the table's order does not matter: the first match is the match (R106). -/
theorem classify_of_hits {r : Row} {w : Word} (hr : r ∈ table) (hw : r.hits w = true) : classify w = some r := by
  cases hc : classify w with
  | none => exact absurd hw (List.find?_eq_none.mp hc r hr)
  | some q => rw [eq_of_hits (List.mem_of_find?_eq_some hc) hr (by simpa using List.find?_some hc) hw]

theorem decode_of_hits {r : Row} {w : Word} (hr : r ∈ table) (hw : r.hits w = true) :
    decode w = .ok (r.build w) := by
  rw [decode, classify_of_hits hr hw]

theorem decode_eq_error_iff (w : Word) :
    decode w = .error .unknownInstruction ↔ ∀ r ∈ table, ¬ r.hits w = true := by
  unfold decode classify
  rw [← List.find?_eq_none]
  split
  next r hr => simp [hr]
  next hr => simp [hr]

/-- The row of an instruction's operation: the constructors of `Instr` stand in the table's order (R110). -/
def Instr.row (i : Instr) : Row := table[i.ctorIdx]'(by cases i <;> exact Nat.le_of_ble_eq_true rfl)

theorem Instr.row_mem (i : Instr) : i.row ∈ table := List.getElem_mem _

/-- A row builds instructions of its own operation only. -/
theorem row_build {r : Row} (hr : r ∈ table) (w : Word) : (r.build w).row = r := by
  fin_cases hr <;> rfl

/-- Decoding by the one row that can give the instruction (R103, R106). -/
theorem decode_eq_ok_iff {w : Word} {i : Instr} : decode w = .ok i ↔ i.row.hits w = true ∧ i.row.build w = i := by
  constructor
  · intro h
    obtain ⟨r, hr, hw, rfl⟩ := decode_ok h
    rw [row_build hr w]
    exact ⟨hw, rfl⟩
  · rintro ⟨hw, hi⟩
    rw [decode_of_hits i.row_mem hw, hi]

/-- Settles O5: the fixed bits by evaluation of the table, the words by `table_pairwise_disjoint`. -/
theorem noWordMatchesTwoRows : Obligations.NoWordMatchesTwoRows :=
  ⟨by decide, by decide, table_pairwise_disjoint⟩

/-- Settles O1, by evaluation at the worked words. -/
theorem workedDecodes : Obligations.WorkedDecodes := by
  unfold Obligations.WorkedDecodes
  and_intros <;> decide

end Sys2Proof
end

-- Decoding an encoding (30_encoding.md section 7, rule R115).
section
namespace Sys2Proof

/-- Every encoding matches a row that builds the instruction back: the per-instruction laws together. -/
theorem exists_row_encode (i : Instr) : Laws.EncodeMatchesRow.Statement i :=
  match i with
  | .add rd rs1 rs2 => Laws.EncodeMatchesRow.add rd rs1 rs2
  | .sub rd rs1 rs2 => Laws.EncodeMatchesRow.sub rd rs1 rs2
  | .xor rd rs1 rs2 => Laws.EncodeMatchesRow.xor rd rs1 rs2
  | .or rd rs1 rs2 => Laws.EncodeMatchesRow.or rd rs1 rs2
  | .and rd rs1 rs2 => Laws.EncodeMatchesRow.and rd rs1 rs2
  | .slt rd rs1 rs2 => Laws.EncodeMatchesRow.slt rd rs1 rs2
  | .sltu rd rs1 rs2 => Laws.EncodeMatchesRow.sltu rd rs1 rs2
  | .addi rd rs1 imm => Laws.EncodeMatchesRow.addi rd rs1 imm
  | .xori rd rs1 imm => Laws.EncodeMatchesRow.xori rd rs1 imm
  | .ori rd rs1 imm => Laws.EncodeMatchesRow.ori rd rs1 imm
  | .andi rd rs1 imm => Laws.EncodeMatchesRow.andi rd rs1 imm
  | .slti rd rs1 imm => Laws.EncodeMatchesRow.slti rd rs1 imm
  | .sltiu rd rs1 imm => Laws.EncodeMatchesRow.sltiu rd rs1 imm
  | .lui rd imm => Laws.EncodeMatchesRow.lui rd imm
  | .sll rd rs1 rs2 => Laws.EncodeMatchesRow.sll rd rs1 rs2
  | .srl rd rs1 rs2 => Laws.EncodeMatchesRow.srl rd rs1 rs2
  | .sra rd rs1 rs2 => Laws.EncodeMatchesRow.sra rd rs1 rs2
  | .lb rd rs1 imm => Laws.EncodeMatchesRow.lb rd rs1 imm
  | .lh rd rs1 imm => Laws.EncodeMatchesRow.lh rd rs1 imm
  | .lw rd rs1 imm => Laws.EncodeMatchesRow.lw rd rs1 imm
  | .lbu rd rs1 imm => Laws.EncodeMatchesRow.lbu rd rs1 imm
  | .lhu rd rs1 imm => Laws.EncodeMatchesRow.lhu rd rs1 imm
  | .sb rs1 rs2 imm => Laws.EncodeMatchesRow.sb rs1 rs2 imm
  | .sh rs1 rs2 imm => Laws.EncodeMatchesRow.sh rs1 rs2 imm
  | .sw rs1 rs2 imm => Laws.EncodeMatchesRow.sw rs1 rs2 imm
  | .beq rs1 rs2 imm => Laws.EncodeMatchesRow.beq rs1 rs2 imm
  | .bne rs1 rs2 imm => Laws.EncodeMatchesRow.bne rs1 rs2 imm
  | .blt rs1 rs2 imm => Laws.EncodeMatchesRow.blt rs1 rs2 imm
  | .bltu rs1 rs2 imm => Laws.EncodeMatchesRow.bltu rs1 rs2 imm
  | .bge rs1 rs2 imm => Laws.EncodeMatchesRow.bge rs1 rs2 imm
  | .bgeu rs1 rs2 imm => Laws.EncodeMatchesRow.bgeu rs1 rs2 imm
  | .jal rd imm => Laws.EncodeMatchesRow.jal rd imm
  | .jalr rd rs1 imm => Laws.EncodeMatchesRow.jalr rd rs1 imm

/-- Settles O6: the encoding's row is the row the decoder takes. -/
theorem decodeEncodeRoundTrip : Obligations.DecodeEncodeRoundTrip := by
  intro i hi
  obtain ⟨r, hr, hhits, hbuild⟩ := exists_row_encode i
  rw [decode_of_hits hr hhits, hbuild hi]

/-- Settles O8: four bytes by `decodeEncodeRoundTrip`, fewer by the length of the list. -/
theorem decodeBytesOfEncoding : Obligations.DecodeBytesOfEncoding := by
  constructor
  · intro i rest hi
    simp only [encodeBytes, List.cons_append, List.nil_append, decodeBytes, Machine.wordOfBytes_byteOf,
      decodeEncodeRoundTrip i hi]
  · intro bs hbs
    match bs with
    | [] | [_] | [_, _] | [_, _, _] => rfl
    | _ :: _ :: _ :: _ :: rest => simp only [List.length_cons] at hbs; omega

end Sys2Proof
end

-- Every known word is an encoding (30_encoding.md section 7, rule R115, the converse).
section
namespace Sys2Proof

/-! ## The immediates the decoder assembles (R97 to R102) -/

theorem Codec.toInt_immI (w : Word) : (Codec.immI w).toInt = (w.extractLsb' 20 12).toInt :=
  BitVec.toInt_signExtend_of_le (by decide)

theorem Codec.toInt_immS (w : Word) : (Codec.immS w).toInt = (w.extractLsb' 25 7 ++ w.extractLsb' 7 5).toInt :=
  BitVec.toInt_signExtend_of_le (by decide)

theorem Codec.toInt_immSB (w : Word) : (Codec.immSB w).toInt
    = 2 * (w.extractLsb' 31 1 ++ w.extractLsb' 7 1 ++ w.extractLsb' 25 6 ++ w.extractLsb' 8 4).toInt :=
  (BitVec.toInt_signExtend_of_le (by decide)).trans BitVec.toInt_append_zero

theorem Codec.toInt_immUJ (w : Word) : (Codec.immUJ w).toInt
    = 2 * (w.extractLsb' 31 1 ++ w.extractLsb' 12 8 ++ w.extractLsb' 20 1 ++ w.extractLsb' 21 10).toInt :=
  (BitVec.toInt_signExtend_of_le (by decide)).trans BitVec.toInt_append_zero

theorem Codec.immU_eq_and (w : Word) : Codec.immU w = w &&& 0xFFFFF000 := by
  apply BitVec.eq_of_getLsbD_eq
  intro k hk
  simp only [Codec.immU, BitVec.getLsbD_and, BitVec.getLsbD_append, BitVec.getLsbD_extractLsb']
  interval_cases k <;> simp

/-- A word whose signed reading is even is even. -/
theorem toNat_even_of_toInt {imm : Word} {k : Int} (h : imm.toInt = 2 * k) : imm.toNat % 2 = 0 := by
  have := BitVec.toInt_eq_toNat_cond imm
  split at this <;> omega

theorem immFits12_immI (w : Word) : immFits12 (Codec.immI w) = true := by
  have hlo := BitVec.le_toInt (w.extractLsb' 20 12)
  have hhi := BitVec.toInt_lt (x := w.extractLsb' 20 12)
  simp only [immFits12, Bool.and_eq_true, decide_eq_true_eq, Codec.toInt_immI]
  omega

theorem immFits12_immS (w : Word) : immFits12 (Codec.immS w) = true := by
  have hlo := BitVec.le_toInt (w.extractLsb' 25 7 ++ w.extractLsb' 7 5)
  have hhi := BitVec.toInt_lt (x := w.extractLsb' 25 7 ++ w.extractLsb' 7 5)
  simp only [immFits12, Bool.and_eq_true, decide_eq_true_eq, Codec.toInt_immS]
  omega

theorem immFitsSB_immSB (w : Word) : immFitsSB (Codec.immSB w) = true := by
  have heven := toNat_even_of_toInt (Codec.toInt_immSB w)
  have hlo := BitVec.le_toInt (w.extractLsb' 31 1 ++ w.extractLsb' 7 1 ++ w.extractLsb' 25 6 ++ w.extractLsb' 8 4)
  have hhi := BitVec.toInt_lt
    (x := w.extractLsb' 31 1 ++ w.extractLsb' 7 1 ++ w.extractLsb' 25 6 ++ w.extractLsb' 8 4)
  simp only [immFitsSB, Bool.and_eq_true, decide_eq_true_eq, heven, and_true]
  rw [Codec.toInt_immSB]
  omega

theorem immFitsUJ_immUJ (w : Word) : immFitsUJ (Codec.immUJ w) = true := by
  have heven := toNat_even_of_toInt (Codec.toInt_immUJ w)
  have hlo := BitVec.le_toInt (w.extractLsb' 31 1 ++ w.extractLsb' 12 8 ++ w.extractLsb' 20 1 ++ w.extractLsb' 21 10)
  have hhi := BitVec.toInt_lt
    (x := w.extractLsb' 31 1 ++ w.extractLsb' 12 8 ++ w.extractLsb' 20 1 ++ w.extractLsb' 21 10)
  simp only [immFitsUJ, Bool.and_eq_true, decide_eq_true_eq, heven, and_true]
  rw [Codec.toInt_immUJ]
  omega

theorem immFitsU_immU (w : Word) : immFitsU (Codec.immU w) = true := by
  simp only [immFitsU, Codec.immU, BitVec.toNat_append, decide_eq_true_eq, Nat.shiftLeft_eq]
  simp

/-! ## A word is the encoding of its own fields (R93) -/

section Reassemble

open Codec

variable (w : Word)

theorem encodeR_fields : encodeR (func7 w) (func3 w) (opcode w) (rd w) (rs1 w) (rs2 w) = w := by
  apply BitVec.eq_of_getLsbD_eq
  intro k hk
  simp only [encodeR, func7, func3, opcode, rd, rs1, rs2, BitVec.getLsbD_append, BitVec.getLsbD_extractLsb']
  interval_cases k <;> simp

theorem encodeI_fields : encodeI (func3 w) (opcode w) (rd w) (rs1 w) (immI w) = w := by
  apply BitVec.eq_of_getLsbD_eq
  intro k hk
  simp only [encodeI, func3, opcode, rd, rs1, immI, BitVec.getLsbD_append, BitVec.getLsbD_extractLsb',
    BitVec.getLsbD_signExtend]
  interval_cases k <;> simp

theorem encodeS_fields : encodeS (func3 w) (opcode w) (rs1 w) (rs2 w) (immS w) = w := by
  apply BitVec.eq_of_getLsbD_eq
  intro k hk
  simp only [encodeS, func3, opcode, rs1, rs2, immS, BitVec.getLsbD_append, BitVec.getLsbD_extractLsb',
    BitVec.getLsbD_signExtend]
  interval_cases k <;> simp

theorem encodeSB_fields : encodeSB (func3 w) (opcode w) (rs1 w) (rs2 w) (immSB w) = w := by
  apply BitVec.eq_of_getLsbD_eq
  intro k hk
  simp only [encodeSB, func3, opcode, rs1, rs2, immSB, BitVec.getLsbD_append, BitVec.getLsbD_extractLsb',
    BitVec.getLsbD_signExtend]
  interval_cases k <;> simp

theorem encodeU_fields : encodeU (opcode w) (rd w) (immU w) = w := by
  apply BitVec.eq_of_getLsbD_eq
  intro k hk
  simp only [encodeU, opcode, rd, immU, BitVec.getLsbD_append, BitVec.getLsbD_extractLsb']
  interval_cases k <;> simp

theorem encodeUJ_fields : encodeUJ (opcode w) (rd w) (immUJ w) = w := by
  apply BitVec.eq_of_getLsbD_eq
  intro k hk
  simp only [encodeUJ, opcode, rd, immUJ, BitVec.getLsbD_append, BitVec.getLsbD_extractLsb',
    BitVec.getLsbD_signExtend]
  interval_cases k <;> simp

end Reassemble

/-! ## The rows of the six formats -/

/-- What the row builds from a word it matches is well formed and encodes to that word (R115, the converse). -/
def Row.Inverts (r : Row) : Prop :=
  ∀ w, r.hits w = true → (r.build w).wellFormed = true ∧ encode (r.build w) = w

section Inverts
variable {id : Word}

theorem rowR_inverts {c : RegIdx → RegIdx → RegIdx → Instr} (hid : id &&& maskOpF3F7 = id)
    (hwf : ∀ rd rs1 rs2, (c rd rs1 rs2).wellFormed = true)
    (henc : ∀ rd rs1 rs2,
      encode (c rd rs1 rs2) = encodeR (Codec.func7 id) (Codec.func3 id) (Codec.opcode id) rd rs1 rs2) :
    (rowR id c).Inverts := by
  intro w hw
  obtain ⟨h7, h3, hop⟩ := (rowR_hits c hid).mp hw
  refine ⟨hwf _ _ _, (henc _ _ _).trans ?_⟩
  rw [← h7, ← h3, ← hop]
  exact encodeR_fields w

theorem rowI_inverts {c : RegIdx → RegIdx → Word → Instr} (hid : id &&& maskOpF3 = id)
    (hwf : ∀ rd rs1 imm, (c rd rs1 imm).wellFormed = immFits12 imm)
    (henc : ∀ rd rs1 imm, encode (c rd rs1 imm) = encodeI (Codec.func3 id) (Codec.opcode id) rd rs1 imm) :
    (rowI id c).Inverts := by
  intro w hw
  obtain ⟨h3, hop⟩ := (rowI_hits c hid).mp hw
  refine ⟨(hwf _ _ _).trans (immFits12_immI w), (henc _ _ _).trans ?_⟩
  rw [← h3, ← hop]
  exact encodeI_fields w

theorem rowS_inverts {c : RegIdx → RegIdx → Word → Instr} (hid : id &&& maskOpF3 = id)
    (hwf : ∀ rs1 rs2 imm, (c rs1 rs2 imm).wellFormed = immFits12 imm)
    (henc : ∀ rs1 rs2 imm, encode (c rs1 rs2 imm) = encodeS (Codec.func3 id) (Codec.opcode id) rs1 rs2 imm) :
    (rowS id c).Inverts := by
  intro w hw
  obtain ⟨h3, hop⟩ := (rowS_hits c hid).mp hw
  refine ⟨(hwf _ _ _).trans (immFits12_immS w), (henc _ _ _).trans ?_⟩
  rw [← h3, ← hop]
  exact encodeS_fields w

theorem rowSB_inverts {c : RegIdx → RegIdx → Word → Instr} (hid : id &&& maskOpF3 = id)
    (hwf : ∀ rs1 rs2 imm, (c rs1 rs2 imm).wellFormed = immFitsSB imm)
    (henc : ∀ rs1 rs2 imm, encode (c rs1 rs2 imm) = encodeSB (Codec.func3 id) (Codec.opcode id) rs1 rs2 imm) :
    (rowSB id c).Inverts := by
  intro w hw
  obtain ⟨h3, hop⟩ := (rowSB_hits c hid).mp hw
  refine ⟨(hwf _ _ _).trans (immFitsSB_immSB w), (henc _ _ _).trans ?_⟩
  rw [← h3, ← hop]
  exact encodeSB_fields w

theorem rowU_inverts {c : RegIdx → Word → Instr} (hid : id &&& maskOp = id)
    (hwf : ∀ rd imm, (c rd imm).wellFormed = immFitsU imm)
    (henc : ∀ rd imm, encode (c rd imm) = encodeU (Codec.opcode id) rd imm) : (rowU id c).Inverts := by
  intro w hw
  refine ⟨(hwf _ _).trans (immFitsU_immU w), (henc _ _).trans ?_⟩
  rw [← (rowU_hits c hid).mp hw]
  exact encodeU_fields w

theorem rowUJ_inverts {c : RegIdx → Word → Instr} (hid : id &&& maskOp = id)
    (hwf : ∀ rd imm, (c rd imm).wellFormed = immFitsUJ imm)
    (henc : ∀ rd imm, encode (c rd imm) = encodeUJ (Codec.opcode id) rd imm) : (rowUJ id c).Inverts := by
  intro w hw
  refine ⟨(hwf _ _).trans (immFitsUJ_immUJ w), (henc _ _).trans ?_⟩
  rw [← (rowUJ_hits c hid).mp hw]
  exact encodeUJ_fields w

end Inverts

theorem tableArith_inverts : ∀ r ∈ tableArith, r.Inverts := by
  intro r hr
  fin_cases hr <;> exact rowR_inverts rfl (fun _ _ _ => rfl) fun _ _ _ => rfl

theorem tableArithImm_inverts : ∀ r ∈ tableArithImm, r.Inverts := by
  intro r hr
  fin_cases hr
  · exact rowI_inverts rfl (fun _ _ _ => rfl) fun _ _ _ => rfl
  · exact rowI_inverts rfl (fun _ _ _ => rfl) fun _ _ _ => rfl
  · exact rowI_inverts rfl (fun _ _ _ => rfl) fun _ _ _ => rfl
  · exact rowI_inverts rfl (fun _ _ _ => rfl) fun _ _ _ => rfl
  · exact rowI_inverts rfl (fun _ _ _ => rfl) fun _ _ _ => rfl
  · exact rowI_inverts rfl (fun _ _ _ => rfl) fun _ _ _ => rfl
  · exact rowU_inverts rfl (fun _ _ => rfl) fun _ _ => rfl

theorem tableShift_inverts : ∀ r ∈ tableShift, r.Inverts := by
  intro r hr
  fin_cases hr <;> exact rowR_inverts rfl (fun _ _ _ => rfl) fun _ _ _ => rfl

theorem tableLoadStore_inverts : ∀ r ∈ tableLoadStore, r.Inverts := by
  intro r hr
  fin_cases hr
  · exact rowI_inverts rfl (fun _ _ _ => rfl) fun _ _ _ => rfl
  · exact rowI_inverts rfl (fun _ _ _ => rfl) fun _ _ _ => rfl
  · exact rowI_inverts rfl (fun _ _ _ => rfl) fun _ _ _ => rfl
  · exact rowI_inverts rfl (fun _ _ _ => rfl) fun _ _ _ => rfl
  · exact rowI_inverts rfl (fun _ _ _ => rfl) fun _ _ _ => rfl
  · exact rowS_inverts rfl (fun _ _ _ => rfl) fun _ _ _ => rfl
  · exact rowS_inverts rfl (fun _ _ _ => rfl) fun _ _ _ => rfl
  · exact rowS_inverts rfl (fun _ _ _ => rfl) fun _ _ _ => rfl

theorem tableControl_inverts : ∀ r ∈ tableControl, r.Inverts := by
  intro r hr
  fin_cases hr
  · exact rowSB_inverts rfl (fun _ _ _ => rfl) fun _ _ _ => rfl
  · exact rowSB_inverts rfl (fun _ _ _ => rfl) fun _ _ _ => rfl
  · exact rowSB_inverts rfl (fun _ _ _ => rfl) fun _ _ _ => rfl
  · exact rowSB_inverts rfl (fun _ _ _ => rfl) fun _ _ _ => rfl
  · exact rowSB_inverts rfl (fun _ _ _ => rfl) fun _ _ _ => rfl
  · exact rowSB_inverts rfl (fun _ _ _ => rfl) fun _ _ _ => rfl
  · exact rowUJ_inverts rfl (fun _ _ => rfl) fun _ _ => rfl
  · exact rowI_inverts rfl (fun _ _ _ => rfl) fun _ _ _ => rfl

theorem table_inverts : ∀ r ∈ table, r.Inverts := by
  simp only [table, List.forall_mem_append]
  exact ⟨⟨⟨⟨tableArith_inverts, tableArithImm_inverts⟩, tableShift_inverts⟩, tableLoadStore_inverts⟩,
    tableControl_inverts⟩

/-- Settles O7: the row that the decoder took inverts. -/
theorem encodeDecodeRoundTrip : Obligations.EncodeDecodeRoundTrip := by
  intro w i h
  obtain ⟨r, hr, hw, rfl⟩ := decode_ok h
  exact table_inverts r hr w hw

end Sys2Proof
end

-- The decoder's answer from the word's bits (30_encoding.md sections 2 to 6, rules R91, R97 to R101 and R110 to R112).
section
namespace Sys2Proof

theorem Codec.eq_immI_iff {w imm : Word} : imm = Codec.immI w ↔
    imm.toInt = (w.extractLsb' 20 12).toInt := by
  rw [← Codec.toInt_immI, BitVec.toInt_inj]

theorem Codec.eq_immS_iff {w imm : Word} : imm = Codec.immS w ↔
    imm.toInt = (w.extractLsb' 25 7 ++ w.extractLsb' 7 5).toInt := by
  rw [← Codec.toInt_immS, BitVec.toInt_inj]

theorem Codec.eq_immSB_iff {w imm : Word} : imm = Codec.immSB w ↔
    imm.toInt = 2 * (w.extractLsb' 31 1 ++ w.extractLsb' 7 1 ++ w.extractLsb' 25 6 ++ w.extractLsb' 8 4).toInt := by
  rw [← Codec.toInt_immSB, BitVec.toInt_inj]

theorem Codec.eq_immUJ_iff {w imm : Word} : imm = Codec.immUJ w ↔
    imm.toInt = 2 * (w.extractLsb' 31 1 ++ w.extractLsb' 12 8 ++ w.extractLsb' 20 1 ++ w.extractLsb' 21 10).toInt := by
  rw [← Codec.toInt_immUJ, BitVec.toInt_inj]

section Rows
variable {id : Word}

theorem decode_eq_ok_rowR {c : RegIdx → RegIdx → RegIdx → Instr} (hrow : ∀ x y z, (c x y z).row = rowR id c)
    (hinj : ∀ x y z x' y' z', (c x y z = c x' y' z') = (x = x' ∧ y = y' ∧ z = z'))
    (w : Word) (rd rs1 rs2 : RegIdx) :
    decode w = .ok (c rd rs1 rs2) ↔
      w &&& maskOpF3F7 = id ∧ rd = Codec.rd w ∧ rs1 = Codec.rs1 w ∧ rs2 = Codec.rs2 w := by
  rw [decode_eq_ok_iff, hrow, Row.hits_iff, eq_comm (b := c rd rs1 rs2)]
  exact and_congr_right' (hinj ..).to_iff

theorem decode_eq_ok_rowI {c : RegIdx → RegIdx → Word → Instr} (hrow : ∀ x y z, (c x y z).row = rowI id c)
    (hinj : ∀ x y z x' y' z', (c x y z = c x' y' z') = (x = x' ∧ y = y' ∧ z = z'))
    (w : Word) (rd rs1 : RegIdx) (imm : Word) :
    decode w = .ok (c rd rs1 imm) ↔
      w &&& maskOpF3 = id ∧ rd = Codec.rd w ∧ rs1 = Codec.rs1 w ∧ imm.toInt = (w.extractLsb' 20 12).toInt := by
  rw [decode_eq_ok_iff, hrow, Row.hits_iff, eq_comm (b := c rd rs1 imm), ← Codec.eq_immI_iff]
  exact and_congr_right' (hinj ..).to_iff

theorem decode_eq_ok_rowS {c : RegIdx → RegIdx → Word → Instr} (hrow : ∀ x y z, (c x y z).row = rowS id c)
    (hinj : ∀ x y z x' y' z', (c x y z = c x' y' z') = (x = x' ∧ y = y' ∧ z = z'))
    (w : Word) (rs1 rs2 : RegIdx) (imm : Word) :
    decode w = .ok (c rs1 rs2 imm) ↔
      w &&& maskOpF3 = id ∧ rs1 = Codec.rs1 w ∧ rs2 = Codec.rs2 w
        ∧ imm.toInt = (w.extractLsb' 25 7 ++ w.extractLsb' 7 5).toInt := by
  rw [decode_eq_ok_iff, hrow, Row.hits_iff, eq_comm (b := c rs1 rs2 imm), ← Codec.eq_immS_iff]
  exact and_congr_right' (hinj ..).to_iff

theorem decode_eq_ok_rowSB {c : RegIdx → RegIdx → Word → Instr} (hrow : ∀ x y z, (c x y z).row = rowSB id c)
    (hinj : ∀ x y z x' y' z', (c x y z = c x' y' z') = (x = x' ∧ y = y' ∧ z = z'))
    (w : Word) (rs1 rs2 : RegIdx) (imm : Word) :
    decode w = .ok (c rs1 rs2 imm) ↔
      w &&& maskOpF3 = id ∧ rs1 = Codec.rs1 w ∧ rs2 = Codec.rs2 w
        ∧ imm.toInt
          = 2 * (w.extractLsb' 31 1 ++ w.extractLsb' 7 1 ++ w.extractLsb' 25 6 ++ w.extractLsb' 8 4).toInt := by
  rw [decode_eq_ok_iff, hrow, Row.hits_iff, eq_comm (b := c rs1 rs2 imm), ← Codec.eq_immSB_iff]
  exact and_congr_right' (hinj ..).to_iff

theorem decode_eq_ok_rowU {c : RegIdx → Word → Instr} (hrow : ∀ x y, (c x y).row = rowU id c)
    (hinj : ∀ x y x' y', (c x y = c x' y') = (x = x' ∧ y = y')) (w : Word) (rd : RegIdx) (imm : Word) :
    decode w = .ok (c rd imm) ↔
      w &&& maskOp = id ∧ rd = Codec.rd w ∧ imm = w &&& 0xFFFFF000 := by
  rw [decode_eq_ok_iff, hrow, Row.hits_iff, eq_comm (b := c rd imm), ← Codec.immU_eq_and]
  exact and_congr_right' (hinj ..).to_iff

theorem decode_eq_ok_rowUJ {c : RegIdx → Word → Instr} (hrow : ∀ x y, (c x y).row = rowUJ id c)
    (hinj : ∀ x y x' y', (c x y = c x' y') = (x = x' ∧ y = y')) (w : Word) (rd : RegIdx) (imm : Word) :
    decode w = .ok (c rd imm) ↔
      w &&& maskOp = id ∧ rd = Codec.rd w
        ∧ imm.toInt
          = 2 * (w.extractLsb' 31 1 ++ w.extractLsb' 12 8 ++ w.extractLsb' 20 1 ++ w.extractLsb' 21 10).toInt := by
  rw [decode_eq_ok_iff, hrow, Row.hits_iff, eq_comm (b := c rd imm), ← Codec.eq_immUJ_iff]
  exact and_congr_right' (hinj ..).to_iff

end Rows

/-- Settles O3: one lemma per format, at each of its rows. -/
theorem decodeFollowsTable : Obligations.DecodeFollowsTable := by
  intro w
  refine ⟨fun rd rs1 rs2 => ?_, fun rd rs1 imm => ?_, fun rs1 rs2 imm => ?_, fun rs1 rs2 imm => ?_,
    fun rd imm => ?_⟩
  · exact ⟨decode_eq_ok_rowR (fun _ _ _ => rfl) Instr.add.injEq w rd rs1 rs2,
    decode_eq_ok_rowR (fun _ _ _ => rfl) Instr.sub.injEq w rd rs1 rs2,
    decode_eq_ok_rowR (fun _ _ _ => rfl) Instr.xor.injEq w rd rs1 rs2,
    decode_eq_ok_rowR (fun _ _ _ => rfl) Instr.or.injEq w rd rs1 rs2,
    decode_eq_ok_rowR (fun _ _ _ => rfl) Instr.and.injEq w rd rs1 rs2,
    decode_eq_ok_rowR (fun _ _ _ => rfl) Instr.slt.injEq w rd rs1 rs2,
    decode_eq_ok_rowR (fun _ _ _ => rfl) Instr.sltu.injEq w rd rs1 rs2,
    decode_eq_ok_rowR (fun _ _ _ => rfl) Instr.sll.injEq w rd rs1 rs2,
    decode_eq_ok_rowR (fun _ _ _ => rfl) Instr.srl.injEq w rd rs1 rs2,
    decode_eq_ok_rowR (fun _ _ _ => rfl) Instr.sra.injEq w rd rs1 rs2⟩
  · exact ⟨decode_eq_ok_rowI (fun _ _ _ => rfl) Instr.addi.injEq w rd rs1 imm,
    decode_eq_ok_rowI (fun _ _ _ => rfl) Instr.xori.injEq w rd rs1 imm,
    decode_eq_ok_rowI (fun _ _ _ => rfl) Instr.ori.injEq w rd rs1 imm,
    decode_eq_ok_rowI (fun _ _ _ => rfl) Instr.andi.injEq w rd rs1 imm,
    decode_eq_ok_rowI (fun _ _ _ => rfl) Instr.slti.injEq w rd rs1 imm,
    decode_eq_ok_rowI (fun _ _ _ => rfl) Instr.sltiu.injEq w rd rs1 imm,
    decode_eq_ok_rowI (fun _ _ _ => rfl) Instr.lb.injEq w rd rs1 imm,
    decode_eq_ok_rowI (fun _ _ _ => rfl) Instr.lh.injEq w rd rs1 imm,
    decode_eq_ok_rowI (fun _ _ _ => rfl) Instr.lw.injEq w rd rs1 imm,
    decode_eq_ok_rowI (fun _ _ _ => rfl) Instr.lbu.injEq w rd rs1 imm,
    decode_eq_ok_rowI (fun _ _ _ => rfl) Instr.lhu.injEq w rd rs1 imm,
    decode_eq_ok_rowI (fun _ _ _ => rfl) Instr.jalr.injEq w rd rs1 imm⟩
  · exact ⟨decode_eq_ok_rowS (fun _ _ _ => rfl) Instr.sb.injEq w rs1 rs2 imm,
    decode_eq_ok_rowS (fun _ _ _ => rfl) Instr.sh.injEq w rs1 rs2 imm,
    decode_eq_ok_rowS (fun _ _ _ => rfl) Instr.sw.injEq w rs1 rs2 imm⟩
  · exact ⟨decode_eq_ok_rowSB (fun _ _ _ => rfl) Instr.beq.injEq w rs1 rs2 imm,
    decode_eq_ok_rowSB (fun _ _ _ => rfl) Instr.bne.injEq w rs1 rs2 imm,
    decode_eq_ok_rowSB (fun _ _ _ => rfl) Instr.blt.injEq w rs1 rs2 imm,
    decode_eq_ok_rowSB (fun _ _ _ => rfl) Instr.bltu.injEq w rs1 rs2 imm,
    decode_eq_ok_rowSB (fun _ _ _ => rfl) Instr.bge.injEq w rs1 rs2 imm,
    decode_eq_ok_rowSB (fun _ _ _ => rfl) Instr.bgeu.injEq w rs1 rs2 imm⟩
  · exact ⟨decode_eq_ok_rowU (fun _ _ => rfl) Instr.lui.injEq w rd imm,
    decode_eq_ok_rowUJ (fun _ _ => rfl) Instr.jal.injEq w rd imm⟩

/-- Settles O4: a word is unknown when no row matches it (R112), said on its three fixed fields; then by the opcode. -/
theorem unknownWordsExactly : Obligations.UnknownWordsExactly := by
  intro w
  rw [decode_eq_error_iff]
  simp (disch := decide) only [table, tableArith, tableArithImm, tableShift, tableLoadStore, tableControl,
    List.forall_mem_append, List.forall_mem_cons, rowR_hits, rowI_hits, rowS_hits, rowSB_hits, rowU_hits, rowUJ_hits,
    Codec.opcode, Codec.func3, Codec.func7]
  generalize w.extractLsb' 25 7 = f7, w.extractLsb' 12 3 = f3, w.extractLsb' 0 7 = op
  by_cases hop : op ∈ [0x03, 0x13, 0x23, 0x33, 0x37, 0x63, 0x67, 0x6F]
  · simp only [List.mem_cons, List.not_mem_nil, or_false] at hop
    obtain rfl | rfl | rfl | rfl | rfl | rfl | rfl | rfl := hop
    · simp; revert f3; decide -- loads
    · simp; revert f3; decide -- immediate arithmetic
    · simp; revert f3; decide -- stores
    · simp; grind -- register arithmetic, the one opcode whose rows look at func7
    · simp -- lui
    · simp; revert f3; decide -- branches
    · simp -- jalr
    · simp -- jal
  · simp only [List.mem_cons, List.not_mem_nil, or_false, not_or, BitVec.ofNat_eq_ofNat] at hop
    simp [hop]

end Sys2Proof
end

-- Sign extension (30_encoding.md section 3, rule R95).
section
namespace Sys2Proof

theorem getLsbD_sext_of_lt {n i : Nat} (v : Word) (hn : n ≤ 32) (hi : i < n) :
    (sext n v).getLsbD i = v.getLsbD i := by
  simp only [sext, BitVec.getLsbD_signExtend, BitVec.getLsbD_setWidth, hi, hi.trans_le hn, decide_true, if_true,
    Bool.true_and]

theorem getLsbD_sext_of_le {n i : Nat} (v : Word) (hpos : 1 ≤ n) (hi : n ≤ i) (hi32 : i < 32) :
    (sext n v).getLsbD i = v.getLsbD (n - 1) := by
  simp only [sext, BitVec.getLsbD_signExtend, BitVec.msb_setWidth, hi32, decide_true, hi.not_gt, if_false,
    Nat.lt_of_succ_le hpos, Bool.true_and]

theorem toInt_sext {n : Nat} (v : Word) (hn : n ≤ 32) : (sext n v).toInt = (v.setWidth n).toInt :=
  BitVec.toInt_signExtend_of_le hn

/-- Flipping a bit that is 0 adds its weight. -/
theorem xor_twoPow_of_getLsbD_false {w k : Nat} {v : BitVec w} (hv : v.getLsbD k = false) :
    v ^^^ BitVec.twoPow w k = v + BitVec.twoPow w k := by
  have hand : v &&& BitVec.twoPow w k = 0#w := by simp [BitVec.and_twoPow, hv]
  rw [BitVec.add_eq_or_of_and_eq_zero _ _ hand]
  apply BitVec.eq_of_getLsbD_eq
  intro i hi
  by_cases hik : k = i
  · subst hik
    simp [hv]
  · simp [BitVec.getLsbD_twoPow, hik]

/-- Flipping a bit that is 1 takes its weight off. -/
theorem xor_twoPow_of_getLsbD_true {w k : Nat} {v : BitVec w} (hv : v.getLsbD k = true) :
    v ^^^ BitVec.twoPow w k = v - BitVec.twoPow w k := by
  have hcleared : (v ^^^ BitVec.twoPow w k).getLsbD k = false := by
    simp only [BitVec.getLsbD_xor, hv, BitVec.getLsbD_twoPow, BitVec.lt_of_getLsbD hv, decide_true, Bool.and_self,
      Bool.xor_self]
  rw [BitVec.eq_sub_iff_add_eq, ← xor_twoPow_of_getLsbD_false hcleared, BitVec.xor_assoc, BitVec.xor_self,
    BitVec.xor_zero]

theorem sext_of_getLsbD_false {k : Nat} {v : Word} (hv : v.toNat < 2 ^ (k + 1)) (hbit : v.getLsbD k = false) :
    sext (k + 1) v = v := by
  rw [sext, BitVec.signExtend_eq_setWidth_of_msb_false (by simpa [BitVec.msb_setWidth] using hbit)]
  apply BitVec.eq_of_toNat_eq
  rw [BitVec.toNat_setWidth, BitVec.toNat_setWidth, Nat.mod_eq_of_lt hv, Nat.mod_eq_of_lt v.isLt]

theorem sext_of_getLsbD_true {k : Nat} {v : Word} (hv : v.toNat < 2 ^ (k + 1)) (hbit : v.getLsbD k = true) :
    sext (k + 1) v = v - BitVec.ofNat 32 (2 ^ (k + 1)) := by
  have hread : (v.setWidth (k + 1)).toInt = (v.toNat : Int) + -((2 ^ (k + 1) : Nat) : Int) := by
    rw [BitVec.toInt_eq_msb_cond, if_pos (by simpa [BitVec.msb_setWidth] using hbit), BitVec.toNat_setWidth,
      Nat.mod_eq_of_lt hv, Int.sub_eq_add_neg]
  rw [sext, BitVec.signExtend, hread, BitVec.ofInt_add, BitVec.ofInt_neg, BitVec.ofInt_natCast, BitVec.ofInt_natCast,
    BitVec.add_neg_eq_sub, BitVec.ofNat_toNat, BitVec.setWidth_eq]

/-- The circuit of R95: flip the sign bit, then subtract its weight. -/
theorem sext_eq_xor_sub {n : Nat} {v : Word} (hpos : 1 ≤ n) (hv : v.toNat < 2 ^ n) :
    sext n v = (v ^^^ BitVec.ofNat 32 (2 ^ (n - 1))) - BitVec.ofNat 32 (2 ^ (n - 1)) := by
  obtain ⟨k, rfl⟩ := Nat.exists_eq_add_of_le' hpos
  have hbit : BitVec.ofNat 32 (2 ^ k) = BitVec.twoPow 32 k :=
    BitVec.eq_of_toNat_eq (by rw [BitVec.toNat_ofNat, BitVec.toNat_twoPow])
  rw [Nat.add_sub_cancel, hbit]
  cases hk : v.getLsbD k with
  | false => rw [sext_of_getLsbD_false hv hk, xor_twoPow_of_getLsbD_false hk, BitVec.add_sub_cancel]
  | true =>
    rw [sext_of_getLsbD_true hv hk, xor_twoPow_of_getLsbD_true hk, Nat.pow_succ, Nat.mul_two, BitVec.ofNat_add, hbit,
      BitVec.sub_sub]

/-- Settles O2: bits, value and circuit by the lemmas above, the worked values by evaluation. -/
theorem signExtensionRule : Obligations.SignExtensionRule := by
  refine ⟨fun n v hpos hn => ⟨fun i hi => getLsbD_sext_of_lt v hn hi,
    fun i hi hi32 => getLsbD_sext_of_le v hpos hi hi32, toInt_sext v hn, sext_eq_xor_sub hpos⟩,
    by decide, by decide, by decide, by decide, by decide, fun v => ?_⟩
  rw [sext, BitVec.setWidth_eq, BitVec.signExtend_eq]

end Sys2Proof
end

-- Arithmetic, logic, comparison and lui (40_arith_logic.md, rules R140 to R154).
section
namespace Sys2Proof

theorem Codec.extractLsb'_immU (w : Word) : (Codec.immU w).extractLsb' 12 20 = w.extractLsb' 12 20 :=
  BitVec.extractLsb'_append_eq_left

/-- The immediate of a decoded `lui` is the assembled one (R100, R103). -/
theorem eq_immU_of_decode_lui {w imm : Word} {rd : RegIdx} (h : decode w = .ok (.lui rd imm)) :
    imm = Codec.immU w := by
  rw [decode_eq_ok_rowU (fun _ _ => rfl) Instr.lui.injEq, ← Codec.immU_eq_and] at h
  obtain ⟨-, -, himm⟩ := h
  exact himm

end Sys2Proof

namespace Sys2Proof.Machine

open Sys2Proof

/-- A register write with a move of the pc changes nothing else, `rd = 0` included (R22, R140). -/
theorem writesReg_setReg_setPc (s : State) (rd : RegIdx) (v target : Word) :
    WritesReg s ((s.setReg rd v).setPc target) rd v target where
  dest := by
    by_cases hrd : rd = 0
    · rw [if_pos hrd, hrd]; rfl
    · rw [if_neg hrd]; exact s.reg_setReg_same v hrd
  others _ hi := s.reg_setReg_of_ne v hi
  pc := rfl
  run := s.setReg_run rd v
  err := s.setReg_err rd v
  mem := fun _ => by rw [State.setPc_mem, State.setReg_mem]
  alloc := s.setReg_alloc rd v
  out := s.setReg_out rd v

/-! ## The three operand shapes complete in every state (R140) -/

theorem writeReg_completes (v : Word) (s : State) (rd : RegIdx) :
    ∃ t, writeReg rd v s = .next t ∧ WritesReg s t rd v (s.pc + 4) :=
  ⟨_, rfl, writesReg_setReg_setPc s rd v _⟩

theorem binary_completes (f : Word → Word → Word) (s : State) (rd rs1 rs2 : RegIdx) :
    ∃ t, binary f rd rs1 rs2 s = .next t ∧ WritesReg s t rd (f (s.reg rs1) (s.reg rs2)) (s.pc + 4) :=
  writeReg_completes _ s rd

theorem binaryImm_completes (f : Word → Word → Word) (s : State) (rd rs1 : RegIdx) (imm : Word) :
    ∃ t, binaryImm f rd rs1 imm s = .next t ∧ WritesReg s t rd (f (s.reg rs1) imm) (s.pc + 4) :=
  writeReg_completes _ s rd

/-! ## What a comparison writes (R146, R147) -/

theorem boolWord_lts (a b : Word) : boolWord (lts a b) = if a.toInt < b.toInt then 1 else 0 := by
  simp only [boolWord, lts, decide_eq_true_eq]

theorem boolWord_ltu (a b : Word) : boolWord (ltu a b) = if a.toNat < b.toNat then 1 else 0 := by
  simp only [boolWord, ltu, decide_eq_true_eq]

/-- Settles O11: each instruction is its operation on two registers or on a register and the immediate. -/
theorem addSubResults : Obligations.AddSubResults := by
  intro s rd rs1 rs2 imm
  exact ⟨binary_completes (· + ·) s rd rs1 rs2, binary_completes (· - ·) s rd rs1 rs2,
    binaryImm_completes (· + ·) s rd rs1 imm⟩

/-- Settles O12, as O11, with the three bitwise operations. -/
theorem logicResults : Obligations.LogicResults := by
  intro s rd rs1 rs2 imm
  exact ⟨binary_completes (· ^^^ ·) s rd rs1 rs2, binary_completes (· ||| ·) s rd rs1 rs2,
    binary_completes (· &&& ·) s rd rs1 rs2, binaryImm_completes (· ^^^ ·) s rd rs1 imm,
    binaryImm_completes (· ||| ·) s rd rs1 imm, binaryImm_completes (· &&& ·) s rd rs1 imm⟩

/-- Settles O13: the comparisons of the readings, once the value `boolWord` writes is spelled as 1 or 0. -/
theorem compareResults : Obligations.CompareResults := by
  intro s rd rs1 rs2 imm
  simp only [← boolWord_lts, ← boolWord_ltu]
  exact ⟨binary_completes (fun a b => boolWord (lts a b)) s rd rs1 rs2,
    binary_completes (fun a b => boolWord (ltu a b)) s rd rs1 rs2,
    binaryImm_completes (fun a b => boolWord (lts a b)) s rd rs1 imm,
    binaryImm_completes (fun a b => boolWord (ltu a b)) s rd rs1 imm⟩

/-- Settles O14: `lui` writes its immediate, which decoding assembles from w[31:12] (R100). -/
theorem luiResult : Obligations.LuiResult := by
  intro s rd imm
  refine ⟨writeReg_completes imm s rd, fun w hw => ?_⟩
  obtain rfl := eq_immU_of_decode_lui hw
  exact ⟨of_decide_eq_true (immFitsU_immU w), Codec.extractLsb'_immU w⟩

end Sys2Proof.Machine
end

-- Shifts (41_shifts.md, rules R160 to R164).
section
namespace Sys2Proof.Machine

open Sys2Proof

/-! ## The table of R164, row by row, by the signed amount -/

theorem shiftLeft_of_out_of_range {v a : Word} (h : a.toInt < 0 ∨ 32 ≤ a.toInt) : shiftLeft v a = 0 := if_pos h

theorem toNat_shiftLeft_of_in_range {v a : Word} (hnonneg : 0 ≤ a.toInt) (hlt : a.toInt < 32) :
    (shiftLeft v a).toNat = v.toNat * 2 ^ a.toInt.toNat % 2 ^ 32 := by
  rw [shiftLeft, if_neg (by omega), BitVec.toNat_shiftLeft, Nat.shiftLeft_eq]

theorem shiftRight_of_out_of_range {v a : Word} (h : a.toInt < 0 ∨ 32 ≤ a.toInt) : shiftRight v a = 0 := if_pos h

theorem toNat_shiftRight_of_in_range {v a : Word} (hnonneg : 0 ≤ a.toInt) (hlt : a.toInt < 32) :
    (shiftRight v a).toNat = v.toNat / 2 ^ a.toInt.toNat := by
  rw [shiftRight, if_neg (by omega), BitVec.toNat_ushiftRight, Nat.shiftRight_eq_div_pow]

theorem shiftRightArith_of_neg {v a : Word} (h : a.toInt < 0) : shiftRightArith v a = 0 := if_pos h

/-- The integer quotient by a positive number is the floor, so the sign fills from the left (R163, C3). -/
theorem toInt_shiftRightArith_of_nonneg {v a : Word} (h : 0 ≤ a.toInt) :
    (shiftRightArith v a).toInt = v.toInt / 2 ^ (a.toInt.toNat % 32) := by
  rw [shiftRightArith, if_neg h.not_gt, BitVec.toInt_sshiftRight, Int.shiftRight_eq_div_pow, Nat.cast_pow,
    Nat.cast_ofNat]

/-- Settles O15: each shift is its operation on two registers, and its value the row of R164 for the amount. -/
theorem shiftResults : Obligations.ShiftResults := by
  intro s rd rs1 rs2
  obtain ⟨tl, hsll, hwl⟩ := binary_completes shiftLeft s rd rs1 rs2
  obtain ⟨tr, hsrl, hwr⟩ := binary_completes shiftRight s rd rs1 rs2
  obtain ⟨ta, hsra, hwa⟩ := binary_completes shiftRightArith s rd rs1 rs2
  exact ⟨⟨tl, _, hsll, hwl, shiftLeft_of_out_of_range, toNat_shiftLeft_of_in_range⟩,
    ⟨tr, _, hsrl, hwr, shiftRight_of_out_of_range, toNat_shiftRight_of_in_range⟩,
    ⟨ta, _, hsra, hwa, shiftRightArith_of_neg, toInt_shiftRightArith_of_nonneg⟩⟩

end Sys2Proof.Machine
end

-- Plain loads and stores: the ranges that memory permits (42_loads_stores.md, rules R170 to R178).
section
namespace Sys2Proof.Machine

open Sys2Proof

/-! ## A permitted range lies in the storage, where no routine has its address (R47, R73) -/

theorem isStorage_of_readable {s : State} {a b n : Nat} (h : Readable s a n) (hlow : a ≤ b) (hhigh : b < a + n) :
    isStorage b = true := by
  rcases h with hfit | ⟨hbase, hend, -⟩
  · exact isStorage_of_lt_dataEnd (lt_of_lt_of_le hhigh hfit)
  · have hin : Config.heapBase ≤ b ∧ b < Config.heapEnd := ⟨hbase.trans hlow, lt_of_lt_of_le hhigh hend⟩
    simp [isStorage, hin]

theorem Writable.readable {s : State} {a n : Nat} (h : Writable s a n) : Readable s a n := Or.imp_left And.right h

theorem not_isReadRoutine_of_isStorage {a : Nat} (h : isStorage a = true) : ¬ IsReadRoutine a := by
  rintro (rfl | rfl) <;> exact absurd h (by decide)

theorem not_isWriteRoutine_of_isStorage {a : Nat} (h : isStorage a = true) : ¬ IsWriteRoutine a := by
  rintro (rfl | rfl | rfl | rfl | rfl | rfl | rfl | rfl | rfl) <;> exact absurd h (by decide)

theorem widthBytes_pos (w : Width) : 0 < widthBytes w := by cases w <;> decide

/-- The address a permitted range starts at holds storage: no access is of zero bytes (R43). -/
theorem isStorage_start_of_readable {s : State} {a : Nat} {w : Width} (h : Readable s a (widthBytes w)) :
    isStorage a = true :=
  isStorage_of_readable h le_rfl (Nat.lt_add_of_pos_right (widthBytes_pos w))

/-! ## Plain loads -/

/-- The dispatcher reads the bytes of a readable range (R50 steps 2 and 3). -/
theorem memRead_of_readable {s : State} {a : Word} {w : Width} (h : Readable s a.toNat (widthBytes w)) :
    memRead s a w = .done (s.mem.readBytes a.toNat w) s := by
  have hroutine := (readRoutineAt_none_iff a).mpr (not_isReadRoutine_of_isStorage (isStorage_start_of_readable h))
  rcases memRead_cases s a w with ⟨r, hr, -⟩ | ⟨-, -, hread⟩ | ⟨-, hp, -⟩
  · rw [hroutine] at hr
    cases hr
  · exact hread
  · rw [(plainRead_iff s _ _).mpr h] at hp
    cases hp

theorem load_of_readable {w : Width} {ext : Word → Word} {rd rs1 : RegIdx} {imm : Word} {s : State}
    (h : Readable s (s.reg rs1 + imm).toNat (widthBytes w)) :
    ∃ t, load w ext rd rs1 imm s = .next t
      ∧ WritesReg s t rd (ext (s.mem.readBytes (s.reg rs1 + imm).toNat w)) (s.pc + 4) := by
  have hload : load w ext rd rs1 imm s = writeReg rd (ext (s.mem.readBytes (s.reg rs1 + imm).toNat w)) s := by
    rw [load, State.ea, memRead_of_readable h]
  rw [hload]
  exact writeReg_completes _ s rd

/-- Sign extension from `n` bits of a value of `n` bits that `MemRead` has zero-extended (R10, R44). -/
theorem sext_setWidth {n : Nat} (hn : n ≤ 32) (v : BitVec n) : sext n (v.setWidth 32) = v.signExtend 32 := by
  rw [sext, BitVec.setWidth_setWidth_of_le _ hn, BitVec.setWidth_eq]

theorem zext_setWidth {n : Nat} (hn : n ≤ 32) (v : BitVec n) : zext n (v.setWidth 32) = v.setWidth 32 := by
  rw [zext, BitVec.setWidth_setWidth_of_le _ hn, BitVec.setWidth_eq]

/-- Settles O16: every load is `load_of_readable` at its width, and its extension acts on the bytes read there. -/
theorem loadsOfReadableRanges : Obligations.LoadsOfReadableRanges := by
  intro s rd rs1 imm a b
  have hload (w : Width) (ext : Word → Word) (v : Word) (hv : ext (s.mem.readBytes a w) = v)
      (h : Readable s a (widthBytes w)) : ∃ t, load w ext rd rs1 imm s = .next t ∧ WritesReg s t rd v (s.pc + 4) :=
    hv ▸ load_of_readable h
  exact ⟨fun h => ⟨hload .byte (sext 8) _ (sext_setWidth (by decide) (b 0)) h,
      hload .byte (zext 8) _ (zext_setWidth (by decide) (b 0)) h⟩,
    fun h => ⟨hload .half (sext 16) _ (sext_setWidth (by decide) (b 1 ++ b 0)) h,
      hload .half (zext 16) _ (zext_setWidth (by decide) (b 1 ++ b 0)) h⟩,
    hload .word id _ rfl⟩

/-! ## Plain stores -/

/-- The dispatcher stores the bytes of a writable range (R49 steps 2 and 3). -/
theorem memWrite_of_writable {s : State} {a : Word} {w : Width} (v : Word) (h : Writable s a.toNat (widthBytes w)) :
    memWrite s a w v = .done () { s with mem := s.mem.writeBytes a.toNat v (widthBytes w) } := by
  have hroutine :=
    (writeRoutineAt_none_iff a).mpr (not_isWriteRoutine_of_isStorage (isStorage_start_of_readable h.readable))
  rcases memWrite_cases s a w v with ⟨r, hr, -⟩ | ⟨-, -, hwrite⟩ | ⟨-, hp, -⟩
  · rw [hroutine] at hr
    cases hr
  · exact hwrite
  · rw [(plainWrite_iff s _ _).mpr h] at hp
    cases hp

/-- Storing bytes with a move of the pc changes the bytes of the range, all of them storage, and nothing else. -/
theorem stores_writeBytes {s : State} {a n : Nat} (v : Word) (hm : s.mem.wf) (h : Writable s a n) :
    Stores s (State.setPc { s with mem := s.mem.writeBytes a v n } (s.pc + 4)) a n v where
  bytes k hk := by
    have hstorage : isStorage (a + k) = true := isStorage_of_readable h.readable (by omega) (by omega)
    rw [State.setPc_mem, Memory.byteAt_writeBytes a v n hm, if_pos ⟨by omega, by omega, hstorage⟩,
      Nat.add_sub_cancel_left, byteOf]
  rest b hb := by rw [State.setPc_mem, Memory.byteAt_writeBytes a v n hm, if_neg (by omega)]
  regs _ := rfl
  pc := rfl
  run := rfl
  err := rfl
  alloc := rfl
  out := rfl

theorem store_of_writable {w : Width} {rs1 rs2 : RegIdx} {imm : Word} {s : State} (hm : s.mem.wf)
    (h : Writable s (s.reg rs1 + imm).toNat (widthBytes w)) :
    ∃ t, store w rs1 rs2 imm s = .next t ∧ Stores s t (s.reg rs1 + imm).toNat (widthBytes w) (s.reg rs2) :=
  ⟨_, by rw [store, State.ea, memWrite_of_writable _ h]; rfl, stores_writeBytes _ hm h⟩

/-- Settles O19: every store is `store_of_writable` at its width. -/
theorem storesToWritableRanges : Obligations.StoresToWritableRanges := by
  intro s rs1 rs2 imm i n hm hi h
  obtain ⟨w, rfl, hx⟩ := exec_of_isStoreOf hi s
  rw [hx]
  exact store_of_writable hm h

end Sys2Proof.Machine
end

-- Branches and jumps (43_control_transfer.md, rules R190 to R198).
section
namespace Sys2Proof.Machine

open Sys2Proof

/-! ## The comparisons a branch decides on (R191 to R196) -/

theorem eqw_eq_true_iff {a b : Word} : eqw a b = true ↔ a = b := decide_eq_true_iff

theorem not_eqw_eq_true_iff {a b : Word} : (!eqw a b) = true ↔ a ≠ b := by
  rw [Bool.not_eq_true', ← Bool.not_eq_true, eqw_eq_true_iff]

theorem lts_eq_true_iff {a b : Word} : lts a b = true ↔ a.toInt < b.toInt := decide_eq_true_iff

theorem ltu_eq_true_iff {a b : Word} : ltu a b = true ↔ a.toNat < b.toNat := decide_eq_true_iff

theorem ges_eq_true_iff {a b : Word} : ges a b = true ↔ a.toInt ≥ b.toInt := decide_eq_true_iff

theorem geu_eq_true_iff {a b : Word} : geu a b = true ↔ a.toNat ≥ b.toNat := decide_eq_true_iff

/-! ## Branches and jumps complete in every state (R190) -/

theorem movesPc_setPc (s : State) (target : Word) : MovesPc s (s.setPc target) target where
  regs := s.setPc_reg target
  pc := rfl
  run := rfl
  err := rfl
  mem _ := rfl
  alloc := rfl
  out := rfl

/-- A branch moves the pc by what its comparison decides: the proposition `p` about the two registers. -/
theorem branch_completes (cond : Word → Word → Bool) {p : Prop} [Decidable p] {s : State} {rs1 rs2 : RegIdx}
    (imm : Word) (hcond : cond (s.reg rs1) (s.reg rs2) = true ↔ p) :
    ∃ t, branch cond rs1 rs2 imm s = .next t ∧ MovesPc s t (if p then s.pc + imm else s.pc + 4) := by
  refine ⟨_, rfl, ?_⟩
  simp only [hcond]
  exact movesPc_setPc s _

theorem jump_completes (s : State) (rd : RegIdx) (target : Word) :
    ∃ t, jump rd target s = .next t ∧ WritesReg s t rd (s.pc + 4) target :=
  ⟨_, rfl, writesReg_setReg_setPc s rd _ target⟩

/-- Settles O27: each branch is `branch_completes` at what its comparison decides. -/
theorem branchResults : Obligations.BranchResults := by
  intro s rs1 rs2 imm x y
  exact ⟨branch_completes eqw imm eqw_eq_true_iff,
    branch_completes (fun a b => !eqw a b) imm not_eqw_eq_true_iff,
    branch_completes lts imm lts_eq_true_iff, branch_completes ltu imm ltu_eq_true_iff,
    branch_completes ges imm ges_eq_true_iff, branch_completes geu imm geu_eq_true_iff⟩

/-- Settles O28: both are `jump_completes`, and the target of `jalr` is computed from the registers before the link
is written (R23). -/
theorem jumpResults : Obligations.JumpResults := by
  intro s rd rs1 imm
  exact ⟨jump_completes s rd (s.pc + imm), jump_completes s rd (s.reg rs1 + imm)⟩

end Sys2Proof.Machine
end

-- The errors (60_exceptions.md, rules R210 to R218, and R224).
section
namespace Sys2Proof.Machine

open Sys2Proof

/-! ## The two stops outside the instruction (R211, R213) -/

/-- Settles O31: the error entry on the state before the step. -/
theorem unknownInstructionStops : Obligations.UnknownInstructionStops :=
  fun s hs hd => ⟨_, step_of_decode_error hs hd, stops_raise s s.alloc _, rfl⟩

/-- The registers as a program reads them do not show the storage of x[0] (R21). -/
@[simp] theorem State.clearX0_regs (s : State) : s.clearX0.regs = s.regs := by
  simp only [State.regs, State.clearX0_reg]

/-- The error entry after step 5 of the cycle, seen from the state the instruction left. -/
theorem stops_raise_clearX0 (t : State) (e : ErrCode) : Stops t (t.clearX0.raise e) e where
  regs := t.clearX0_reg
  pc := rfl
  run := rfl
  err := rfl
  mem _ := rfl
  out := by rw [State.raise_out, State.clearX0_out, State.clearX0_regs, State.clearX0_pc]

/-- Settles O32: the cycle of the instruction ends by `endCycle_of_pc_ge`. -/
theorem pcOutOfBoundsStops : Obligations.PcOutOfBoundsStops := by
  intro s t i hs hd hx herr hpc
  refine ⟨t.clearX0.raise .pcOutOfBounds, ?_, stops_raise_clearX0 t _, rfl⟩
  rw [step_of_decode_ok hs hd, hx, finishCycle, endCycle_of_pc_ge herr hpc]

/-! ## The size of the allocation list (R214) -/

/-- Sorted nodes of at least one bank each, between bank `k` and bank `n`, are at most as many as the banks there. -/
theorem length_le_of_sorted_nodes {l : List Node} {k n : Nat} (hk : k ≤ n)
    (hsorted : l.Pairwise fun p q => p.stop ≤ q.start)
    (hnodes : ∀ nd ∈ l, k ≤ nd.start ∧ 1 ≤ nd.len ∧ nd.stop ≤ n) : k + l.length ≤ n := by
  induction l generalizing k with
  | nil => exact hk
  | cons x xs ih =>
    obtain ⟨hfirst, hrest⟩ := List.pairwise_cons.mp hsorted
    obtain ⟨⟨hstart, hlen, hstop⟩, htail⟩ := List.forall_mem_cons.mp hnodes
    have htail_fits : x.stop + xs.length ≤ n :=
      ih hstop hrest fun nd hnd => ⟨hfirst nd hnd, (htail nd hnd).2⟩
    rw [Node.stop] at htail_fits
    rw [List.length_cons]
    omega

/-- Settles O49: `length_le_of_sorted_nodes` over all 128 banks. -/
theorem allocHasAtMost128Nodes : Obligations.AllocHasAtMost128Nodes := by
  rintro l ⟨hsorted, hnodes⟩
  have hbound : 0 + l.length ≤ Config.nBank :=
    length_le_of_sorted_nodes (Nat.zero_le _) hsorted fun nd hnd => ⟨Nat.zero_le _, hnodes nd hnd⟩
  rwa [Nat.zero_add] at hbound

/-! ## An instruction completes without a diagnostic, or raises (R212, R217, R218) -/

/-- The number of diagnostics in `OUT` (R217). -/
def State.diagCount (s : State) : Nat := s.out.countP Event.isDiag

theorem State.diagCount_congr {s t : State} (h : t.out = s.out) : t.diagCount = s.diagCount :=
  congrArg (List.countP Event.isDiag) h

theorem State.diagCount_append {s t : State} {e : Event} (h : t.out = s.out ++ [e]) :
    t.diagCount = s.diagCount + if e.isDiag then 1 else 0 := by
  rw [State.diagCount, h, List.countP_append, List.countP_singleton]
  rfl

@[simp] theorem State.diagCount_raise (s : State) (e : ErrCode) : (s.raise e).diagCount = s.diagCount + 1 :=
  State.diagCount_append (State.raise_out s e)

/-- From `s` to `t` nothing was raised: the error code and the number of diagnostics are as before. -/
def RaisesNothing (s t : State) : Prop := t.err = s.err ∧ t.diagCount = s.diagCount

/-- `t` is the error entry after a load or store `i`, with `ALLOC` as a failing free may leave it (R78, R218). -/
def Raises (i : Instr) (s t : State) : Prop :=
  (isLoad i = true ∨ isStore i = true)
  ∧ ∃ l, (l = s.alloc ∨ storeAddress s i = some 0x0834 ∧ ∃ op, l = allocAfterFailedFree op s.alloc)
      ∧ t = State.raise { s with alloc := l } .illegalOperation

/-- An event that is no diagnostic counts for nothing. -/
theorem raisesNothing_of_out {s t : State} (herr : t.err = s.err)
    (hout : t.out = s.out ∨ ∃ e, Event.isDiag e = false ∧ t.out = s.out ++ [e]) : RaisesNothing s t := by
  refine ⟨herr, ?_⟩
  rcases hout with hsame | ⟨e, he, hout⟩
  · exact State.diagCount_congr hsame
  · simp [State.diagCount_append hout, he]

theorem load_raisesNothing_or_raises {w : Width} {ext : Word → Word} {rd rs1 : RegIdx} {imm : Word} {s t : State}
    (h : load w ext rd rs1 imm s = .next t) : RaisesNothing s t ∨ t = s.raise .illegalOperation := by
  refine (load_next h).imp_left ?_
  rintro ⟨v, s', rfl | ⟨e, he, rfl⟩, rfl⟩
  · exact raisesNothing_of_out (by simp) (.inl (by simp))
  · exact raisesNothing_of_out (by simp) (.inr ⟨e, he, by simp⟩)

theorem store_raisesNothing_or_raises {w : Width} {rs1 rs2 : RegIdx} {imm : Word} {s t : State}
    (h : store w rs1 rs2 imm s = .next t) :
    RaisesNothing s t
    ∨ ∃ l, (l = s.alloc ∨ s.reg rs1 + imm = 0x0834 ∧ ∃ op, l = allocAfterFailedFree op s.alloc)
      ∧ t = State.raise { s with alloc := l } .illegalOperation := by
  rcases store_next h with ⟨r, s', -, hdone, rfl⟩ | ⟨-, rfl⟩ | hraised
  · obtain ⟨-, -, herr, -, -, -, -, -, -, hout⟩ := invoke_done hdone
    exact .inl (raisesNothing_of_out herr hout)
  · exact .inl ⟨rfl, rfl⟩
  · exact .inr hraised

/-- All an instruction can do to the error code and the diagnostics. `Effect` does not say which instructions raise, nor
that a console event is no diagnostic. -/
theorem exec_raisesNothing_or_raises {i : Instr} {s t : State} (h : exec i s = .next t) :
    RaisesNothing s t ∨ Raises i s t := by
  rcases exec_shape i s with ⟨-, -, -, rd, v, hx⟩ | ⟨hload, -, -, w, ext, rd, rs1, imm, hx⟩
    | ⟨hstore, -, w, rs1, rs2, imm, hx, haddr⟩ <;> rw [hx] at h
  · cases h
    exact .inl (raisesNothing_of_out (by simp) (.inl (by simp)))
  · exact (load_raisesNothing_or_raises h).imp_right fun hraised => ⟨.inl hload, s.alloc, .inl rfl, hraised⟩
  · refine (store_raisesNothing_or_raises h).imp_right fun ⟨l, hlist, hraised⟩ => ⟨.inr hstore, l, ?_, hraised⟩
    exact hlist.imp_right fun ⟨ha, hop⟩ => ⟨haddr.trans (congrArg some ha), hop⟩

/-- An instruction that leaves an error where there was none has raised. -/
theorem exec_raises {i : Instr} {s t : State} (hs : s.err = .none) (h : exec i s = .next t) (ht : t.err ≠ .none) :
    Raises i s t :=
  (exec_raisesNothing_or_raises h).resolve_left fun ⟨hsame, _⟩ => ht (hsame.trans hs)

/-- Settles O35: `exec_raises`. -/
theorem onlyLoadsAndStoresRaise : Obligations.OnlyLoadsAndStoresRaise := by
  intro i s t hs hx ht
  obtain ⟨hmemory, l, -, rfl⟩ := exec_raises hs hx ht
  exact ⟨rfl, hmemory⟩

/-- Settles O36: `exec_raises`; what a failing free leaves of the list is `allocAfterFailedFree_cases`. -/
theorem errorsArePrecise : Obligations.ErrorsArePrecise := by
  intro i s t hs hx ht
  obtain ⟨-, l, hlist, rfl⟩ := exec_raises hs hx ht
  refine ⟨stops_raise s l _, ?_⟩
  rw [State.raise_alloc]
  rcases hlist with hsame | ⟨haddr, op, rfl⟩
  · exact .inl hsame
  · rcases allocAfterFailedFree_cases op s.alloc with hsame | ⟨nd, hnd, -, herase⟩
    · exact .inl hsame
    · exact .inr ⟨haddr, nd, hnd, herase⟩

/-! ## One diagnostic per error (R217, R224) -/

/-- One diagnostic in `OUT` for an error and none without. -/
def DiagPerError (s : State) : Prop := s.diagCount = if s.err = .none then 0 else 1

theorem diagPerError_of_raisesNothing {s t : State} (hs : DiagPerError s) (h : RaisesNothing s t) : DiagPerError t := by
  obtain ⟨herr, hcount⟩ := h
  rw [DiagPerError, herr, hcount]
  exact hs

/-- The error entry takes the count from 0 to 1. -/
theorem diagPerError_raise {s : State} {e : ErrCode} (hs : DiagPerError s) (hnone : s.err = .none) (he : e ≠ .none) :
    DiagPerError (s.raise e) := by
  rw [DiagPerError, if_pos hnone] at hs
  rw [DiagPerError, State.diagCount_raise, State.raise_err, if_neg he, hs]

theorem exec_diagPerError {i : Instr} {s t : State} (hs : DiagPerError s) (hnone : s.err = .none)
    (h : exec i s = .next t) : DiagPerError t := by
  rcases exec_raisesNothing_or_raises h with hsame | ⟨-, l, -, rfl⟩
  · exact diagPerError_of_raisesNothing hs hsame
  · have hlist : DiagPerError { s with alloc := l } := hs
    exact diagPerError_raise hlist hnone (by decide)

theorem endCycle_diagPerError {t : State} (ht : DiagPerError t) : DiagPerError (endCycle t) := by
  have hclear : DiagPerError t.clearX0 := ht
  rcases endCycle_cases t with ⟨-, h⟩ | ⟨hnone, -, h⟩ | ⟨-, -, h⟩ <;> rw [h]
  · exact ht
  · exact diagPerError_raise hclear hnone (by decide)
  · exact hclear

/-- Settles O53: `DiagPerError` is kept by each of the ends a step has. -/
theorem oneDiagnosticPerError : Obligations.OneDiagnosticPerError := by
  intro s t hs hstep
  change DiagPerError s at hs
  change DiagPerError t
  rcases step_next hstep with ⟨-, rfl⟩ | ⟨-, hnone, -, ⟨-, rfl⟩ | ⟨i, u, -, hx, rfl⟩⟩
  · exact hs
  · exact diagPerError_raise hs hnone (by decide)
  · exact endCycle_diagPerError (exec_diagPerError hs hnone hx)

end Sys2Proof.Machine
end

-- Reset and the start image (70_reset_and_hazards.md section 1, rules R240 and R241).
section
namespace Sys2Proof.Machine

/-- Every register reads 0 after reset (R34, by decision D6). -/
@[simp] theorem State.reset_reg (i : RegIdx) : State.reset.reg i = 0 := by
  by_cases hi : i = 0
  · rw [hi]
    exact State.reset.reg_zero
  · rw [State.reg_of_ne_zero _ hi]
    exact Vector.getElem_replicate i.isLt

/-- The equation of reset on an image it accepts. -/
theorem resetWithImage_of_length_eq {image : List Byte} (h : image.length = Config.imageSize) :
    State.resetWithImage image = some { State.reset with mem := Memory.load [] 0 image } := if_pos h

/-- Reset accepts no image of another size (R241). -/
theorem resetWithImage_of_length_ne {image : List Byte} (h : image.length ≠ Config.imageSize) :
    State.resetWithImage image = none := if_neg h

/-- Settles O50: the loaded bytes by `byteAt_resetWithImage`; every field other than the memory is that of
`State.reset`. -/
theorem resetLoadsImage : Obligations.ResetLoadsImage := by
  refine fun image => ⟨fun hlen => ?_, resetWithImage_of_length_ne⟩
  have hreset := resetWithImage_of_length_eq hlen
  have hregs (i : RegIdx) : State.reg { State.reset with mem := Memory.load [] 0 image } i = 0 :=
    (State.reg_congr rfl i).trans (State.reset_reg i)
  exact ⟨_, hreset, fun _ hk => byteAt_resetWithImage hreset hk, rfl, hregs, rfl, rfl, rfl, rfl,
    inv_resetWithImage hreset⟩

end Sys2Proof.Machine
end
